-- ==== Sys2Proof/Word.lean ====
section
/-!
DEFINITION. The word types of the machine (00_scope.md R9): unsigned integers of 4, 8, 12 and 16 bits.
There are no signed values anywhere in this machine.
-/

namespace Sys2Proof

/-- u4: a register index, a row count, a key index (R9, R71). -/
abbrev Nibble := BitVec 4

/-- u8: a general register, a timer, a memory byte (R9, R21, R32). -/
abbrev Byte := BitVec 8

/-- u12: the NNN field (R9, R71). -/
abbrev Addr := BitVec 12

/-- u16: an instruction word, I, PC, a stack entry (R9, R24, R26, R27). -/
abbrev Word := BitVec 16

/-- `zext_16` of an address field (R10, R73). -/
abbrev Addr.toWord (a : Addr) : Word := a.setWidth 16

/-- `zext_16` of a byte (R10). -/
abbrev Byte.toWord (b : Byte) : Word := b.setWidth 16

end Sys2Proof
end

