-- ==== Sys2Proof/Syntax.lean ====
section
/-!
DEFINITION. The instruction set as data (30_encoding.md R74): one constructor per row of spec/opcode_table.json,
in the table's order, and the names under which a decoder refuses.
-/

namespace Sys2Proof

/-- The 34 instruction forms of R74. `x` and `y` are register indices, `nn` an 8-bit immediate, `n` a row count,
`nnn` an address. The ignored Y field of 8XY6 and 8XYE is kept (R76): no bit of a word is dropped. -/
inductive Instr where
  | jp (nnn : Addr)                    -- 1NNN  JP NNN          R101
  | call (nnn : Addr)                  -- 2NNN  CALL NNN        R102
  | ret                                -- 00EE  RET             R100
  | jpV0 (nnn : Addr)                  -- BNNN  JP V0, NNN      R103
  | seImm (x : Nibble) (nn : Byte)     -- 3XNN  SE VX, NN       R110
  | sneImm (x : Nibble) (nn : Byte)    -- 4XNN  SNE VX, NN      R111
  | seReg (x y : Nibble)               -- 5XY0  SE VX, VY       R112
  | sneReg (x y : Nibble)              -- 9XY0  SNE VX, VY      R113
  | ldImm (x : Nibble) (nn : Byte)     -- 6XNN  LD VX, NN       R120
  | addImm (x : Nibble) (nn : Byte)    -- 7XNN  ADD VX, NN      R121
  | ldReg (x y : Nibble)               -- 8XY0  LD VX, VY       R122
  | orReg (x y : Nibble)               -- 8XY1  OR VX, VY       R123
  | andReg (x y : Nibble)              -- 8XY2  AND VX, VY      R124
  | xorReg (x y : Nibble)              -- 8XY3  XOR VX, VY      R125
  | addReg (x y : Nibble)              -- 8XY4  ADD VX, VY      R126
  | subReg (x y : Nibble)              -- 8XY5  SUB VX, VY      R127
  | shr (x y : Nibble)                 -- 8XY6  SHR VX, VY      R128
  | subn (x y : Nibble)                -- 8XY7  SUBN VX, VY     R129
  | shl (x y : Nibble)                 -- 8XYE  SHL VX, VY      R130
  | rnd (x : Nibble) (nn : Byte)       -- CXNN  RND VX, NN      R131
  | ldI (nnn : Addr)                   -- ANNN  LD I, NNN       R140
  | addI (x : Nibble)                  -- FX1E  ADD I, VX       R141
  | ldF (x : Nibble)                   -- FX29  LD F, VX        R142
  | ldB (x : Nibble)                   -- FX33  LD B, VX        R143
  | stRegs (x : Nibble)                -- FX55  LD [I], VX      R144
  | ldRegs (x : Nibble)                -- FX65  LD VX, [I]      R145
  | cls                                -- 00E0  CLS             R151
  | drw (x y n : Nibble)               -- DXYN  DRW VX, VY, N   R152
  | skp (x : Nibble)                   -- EX9E  SKP VX          R160
  | sknp (x : Nibble)                  -- EXA1  SKNP VX         R161
  | ldKey (x : Nibble)                 -- FX0A  LD VX, K        R162
  | setDt (x : Nibble)                 -- FX15  LD DT, VX       R171
  | setSt (x : Nibble)                 -- FX18  LD ST, VX       R172
  | getDt (x : Nibble)                 -- FX07  LD VX, DT       R170
  deriving DecidableEq, Repr

/-- Why bytes are no instruction: one name per class of Invalid words of R77, and one for bytes that run out. -/
inductive DecodeError where
  /-- Fewer than two bytes: no instruction word (R70). -/
  | truncated
  /-- 0x0000..0x0FFF except 00E0 and 00EE, the historical 0NNN among them (R77, D21). -/
  | noMachineCall
  /-- 5XYN or 9XYN with N not 0 (R77, D21). -/
  | skipLowNibble
  /-- 8XYN with N in 8, 9, A, B, C, D, F (R77). -/
  | arithmeticSubOp
  /-- EXNN with NN neither 9E nor A1 (R77). -/
  | keypadSubOp
  /-- FXNN with NN none of 07, 0A, 15, 18, 1E, 29, 33, 55, 65 (R77). -/
  | miscSubOp
  deriving DecidableEq, Repr

end Sys2Proof
end

