-- ==== Sys2Proof/WellFormed.lean ====
section
/-!
DEFINITION. Well-formedness. Of an instruction: every operand inside its field (R21, R73), which the operands' types
already guarantee. Of a word: none of the five classes of Invalid words of 30_encoding.md R77, written from R77's list
by arithmetic on the word's number, independently of the decode procedure of R75.
-/

namespace Sys2Proof

/-- The operands of an instruction, each with the number of values its field holds (R71). -/
def Instr.operands : Instr → List (Nat × Nat)
  | .jp nnn | .call nnn | .jpV0 nnn | .ldI nnn => [(nnn.toNat, 4096)]
  | .ret | .cls => []
  | .seImm x nn | .sneImm x nn | .ldImm x nn | .addImm x nn | .rnd x nn => [(x.toNat, 16), (nn.toNat, 256)]
  | .seReg x y | .sneReg x y | .ldReg x y | .orReg x y | .andReg x y | .xorReg x y | .addReg x y | .subReg x y
  | .shr x y | .subn x y | .shl x y => [(x.toNat, 16), (y.toNat, 16)]
  | .drw x y n => [(x.toNat, 16), (y.toNat, 16), (n.toNat, 16)]
  | .addI x | .ldF x | .ldB x | .stRegs x | .ldRegs x | .skp x | .sknp x | .ldKey x | .setDt x | .setSt x | .getDt x =>
    [(x.toNat, 16)]

/-- Every operand lies in its field: "register index is always in [0,15]" (R21), NN a u8, NNN a u12 (R73). -/
def Instr.wf (i : Instr) : Bool := i.operands.all fun f => f.1 < f.2

/-- R77: 0x0000..0x0FFF except 0x00E0 and 0x00EE. -/
def isNoMachineCall (w : Word) : Bool := w.toNat ≤ 0x0FFF && w.toNat != 0x00E0 && w.toNat != 0x00EE

/-- R77: 0x5XYN and 0x9XYN with N not 0. -/
def isSkipLowNibble (w : Word) : Bool :=
  (w.toNat / 0x1000 == 0x5 || w.toNat / 0x1000 == 0x9) && w.toNat % 0x10 != 0

/-- R77: 0x8XYN with N in 0x8, 0x9, 0xA, 0xB, 0xC, 0xD, 0xF. -/
def isArithmeticSubOp (w : Word) : Bool :=
  w.toNat / 0x1000 == 0x8 && [0x8, 0x9, 0xA, 0xB, 0xC, 0xD, 0xF].contains (w.toNat % 0x10)

/-- R77: 0xEXNN with NN neither 0x9E nor 0xA1. -/
def isKeypadSubOp (w : Word) : Bool := w.toNat / 0x1000 == 0xE && !([0x9E, 0xA1].contains (w.toNat % 0x100))

/-- R77: 0xFXNN with NN none of the nine sub-opcodes. -/
def isMiscSubOp (w : Word) : Bool :=
  w.toNat / 0x1000 == 0xF && !([0x07, 0x0A, 0x15, 0x18, 0x1E, 0x29, 0x33, 0x55, 0x65].contains (w.toNat % 0x100))

/-- A word that is an instruction: in none of R77's classes. -/
def wellFormedWord (w : Word) : Bool :=
  !(isNoMachineCall w || isSkipLowNibble w || isArithmeticSubOp w || isKeypadSubOp w || isMiscSubOp w)

end Sys2Proof
end

