-- ==== Sys2Proof/Decode.lean ====
section
/-!
DEFINITION. The decoder and the encoder (30_encoding.md): the fields of a word (R71), the decode procedure (R75), total
on every word and rejecting by name, the same on bytes (big-endian, R53), and the encoder, written from the formats of
R72 and the patterns of R74.
-/

namespace Sys2Proof

/-- w[15:12], the leading nibble (R71). -/
def Word.op (w : Word) : Nibble := w.extractLsb' 12 4

/-- w[11:8], the first register index (R71). -/
def Word.x (w : Word) : Nibble := w.extractLsb' 8 4

/-- w[7:4], the second register index (R71). -/
def Word.y (w : Word) : Nibble := w.extractLsb' 4 4

/-- w[3:0], the 4-bit immediate or sub-opcode (R71). -/
def Word.n (w : Word) : Nibble := w.extractLsb' 0 4

/-- w[7:0], the 8-bit immediate or sub-opcode (R71). -/
def Word.nn (w : Word) : Byte := w.extractLsb' 0 8

/-- w[11:0], the address (R71). -/
def Word.nnn (w : Word) : Addr := w.extractLsb' 0 12

/-- Group 8 of R75, by the low nibble. -/
def decodeArithmetic (w : Word) : Except DecodeError Instr :=
  match w.n.toNat with
  | 0x0 => .ok (.ldReg w.x w.y)
  | 0x1 => .ok (.orReg w.x w.y)
  | 0x2 => .ok (.andReg w.x w.y)
  | 0x3 => .ok (.xorReg w.x w.y)
  | 0x4 => .ok (.addReg w.x w.y)
  | 0x5 => .ok (.subReg w.x w.y)
  | 0x6 => .ok (.shr w.x w.y)
  | 0x7 => .ok (.subn w.x w.y)
  | 0xE => .ok (.shl w.x w.y)
  | _ => .error .arithmeticSubOp

/-- Group E of R75, by the low byte. -/
def decodeKeypad (w : Word) : Except DecodeError Instr :=
  match w.nn.toNat with
  | 0x9E => .ok (.skp w.x)
  | 0xA1 => .ok (.sknp w.x)
  | _ => .error .keypadSubOp

/-- Group F of R75, by the low byte. -/
def decodeMisc (w : Word) : Except DecodeError Instr :=
  match w.nn.toNat with
  | 0x07 => .ok (.getDt w.x)
  | 0x0A => .ok (.ldKey w.x)
  | 0x15 => .ok (.setDt w.x)
  | 0x18 => .ok (.setSt w.x)
  | 0x1E => .ok (.addI w.x)
  | 0x29 => .ok (.ldF w.x)
  | 0x33 => .ok (.ldB w.x)
  | 0x55 => .ok (.stRegs w.x)
  | 0x65 => .ok (.ldRegs w.x)
  | _ => .error .miscSubOp

/-- Group 0 of R75: two whole words. -/
def decodeGroupZero (w : Word) : Except DecodeError Instr :=
  if w = 0x00E0#16 then .ok .cls
  else if w = 0x00EE#16 then .ok .ret
  else .error .noMachineCall

/-- Groups 5 and 9 of R75: the low nibble must be 0. -/
def decodeSkipReg (w : Word) (i : Instr) : Except DecodeError Instr :=
  if w.n = 0#4 then .ok i else .error .skipLowNibble

/-- The decode procedure of R75: every word is exactly one of the 34 forms or Invalid. The last arm is the leading
nibble 0xF, the only one the others leave. -/
def decode (w : Word) : Except DecodeError Instr :=
  match w.op.toNat with
  | 0x0 => decodeGroupZero w
  | 0x1 => .ok (.jp w.nnn)
  | 0x2 => .ok (.call w.nnn)
  | 0x3 => .ok (.seImm w.x w.nn)
  | 0x4 => .ok (.sneImm w.x w.nn)
  | 0x5 => decodeSkipReg w (.seReg w.x w.y)
  | 0x6 => .ok (.ldImm w.x w.nn)
  | 0x7 => .ok (.addImm w.x w.nn)
  | 0x8 => decodeArithmetic w
  | 0x9 => decodeSkipReg w (.sneReg w.x w.y)
  | 0xA => .ok (.ldI w.nnn)
  | 0xB => .ok (.jpV0 w.nnn)
  | 0xC => .ok (.rnd w.x w.nn)
  | 0xD => .ok (.drw w.x w.y w.n)
  | 0xE => decodeKeypad w
  | _ => decodeMisc w

/-- Two bytes as a word, the first most significant (R53). -/
def wordOfBytes (hi lo : Byte) : Word := hi ++ lo

/-- The more significant byte of a word, the one at the lower address (R53). -/
def Word.hiByte (w : Word) : Byte := w.extractLsb' 8 8

/-- The less significant byte of a word (R53). -/
def Word.loByte (w : Word) : Byte := w.extractLsb' 0 8

/-- Decoding from the bytes at increasing addresses: the instruction and the bytes after it (R53, R70). -/
def decodeBytes : List Byte → Except DecodeError (Instr × List Byte)
  | hi :: lo :: rest =>
    match decode (wordOfBytes hi lo) with
    | .ok i => .ok (i, rest)
    | .error e => .error e
  | _ => .error .truncated

/-- Format A of R72: the leading nibble and an address. -/
def formatA (op : Nibble) (nnn : Addr) : Word := op ++ nnn

/-- Format RI of R72 (and R1, whose low byte is the sub-opcode): leading nibble, X, low byte. -/
def formatRI (op x : Nibble) (nn : Byte) : Word := op ++ x ++ nn

/-- Formats RR and D of R72: four nibbles. -/
def formatRR (op x y n : Nibble) : Word := op ++ x ++ y ++ n

/-- The word of an instruction, from the patterns of R74. -/
def encode : Instr → Word
  | .jp nnn => formatA 0x1 nnn
  | .call nnn => formatA 0x2 nnn
  | .ret => 0x00EE#16
  | .jpV0 nnn => formatA 0xB nnn
  | .seImm x nn => formatRI 0x3 x nn
  | .sneImm x nn => formatRI 0x4 x nn
  | .seReg x y => formatRR 0x5 x y 0x0
  | .sneReg x y => formatRR 0x9 x y 0x0
  | .ldImm x nn => formatRI 0x6 x nn
  | .addImm x nn => formatRI 0x7 x nn
  | .ldReg x y => formatRR 0x8 x y 0x0
  | .orReg x y => formatRR 0x8 x y 0x1
  | .andReg x y => formatRR 0x8 x y 0x2
  | .xorReg x y => formatRR 0x8 x y 0x3
  | .addReg x y => formatRR 0x8 x y 0x4
  | .subReg x y => formatRR 0x8 x y 0x5
  | .shr x y => formatRR 0x8 x y 0x6
  | .subn x y => formatRR 0x8 x y 0x7
  | .shl x y => formatRR 0x8 x y 0xE
  | .rnd x nn => formatRI 0xC x nn
  | .ldI nnn => formatA 0xA nnn
  | .addI x => formatRI 0xF x 0x1E
  | .ldF x => formatRI 0xF x 0x29
  | .ldB x => formatRI 0xF x 0x33
  | .stRegs x => formatRI 0xF x 0x55
  | .ldRegs x => formatRI 0xF x 0x65
  | .cls => 0x00E0#16
  | .drw x y n => formatRR 0xD x y n
  | .skp x => formatRI 0xE x 0x9E
  | .sknp x => formatRI 0xE x 0xA1
  | .ldKey x => formatRI 0xF x 0x0A
  | .setDt x => formatRI 0xF x 0x15
  | .setSt x => formatRI 0xF x 0x18
  | .getDt x => formatRI 0xF x 0x07

/-- The two bytes of an instruction, at increasing addresses (R53). -/
def encodeBytes (i : Instr) : List Byte := [(encode i).hiByte, (encode i).loByte]

/-- The "match" and "mask" of an instruction's row of spec/opcode_table.json. -/
def Instr.row : Instr → Word × Word
  | .jp _ => (0x1000, 0xF000)
  | .call _ => (0x2000, 0xF000)
  | .ret => (0x00EE, 0xFFFF)
  | .jpV0 _ => (0xB000, 0xF000)
  | .seImm _ _ => (0x3000, 0xF000)
  | .sneImm _ _ => (0x4000, 0xF000)
  | .seReg _ _ => (0x5000, 0xF00F)
  | .sneReg _ _ => (0x9000, 0xF00F)
  | .ldImm _ _ => (0x6000, 0xF000)
  | .addImm _ _ => (0x7000, 0xF000)
  | .ldReg _ _ => (0x8000, 0xF00F)
  | .orReg _ _ => (0x8001, 0xF00F)
  | .andReg _ _ => (0x8002, 0xF00F)
  | .xorReg _ _ => (0x8003, 0xF00F)
  | .addReg _ _ => (0x8004, 0xF00F)
  | .subReg _ _ => (0x8005, 0xF00F)
  | .shr _ _ => (0x8006, 0xF00F)
  | .subn _ _ => (0x8007, 0xF00F)
  | .shl _ _ => (0x800E, 0xF00F)
  | .rnd _ _ => (0xC000, 0xF000)
  | .ldI _ => (0xA000, 0xF000)
  | .addI _ => (0xF01E, 0xF0FF)
  | .ldF _ => (0xF029, 0xF0FF)
  | .ldB _ => (0xF033, 0xF0FF)
  | .stRegs _ => (0xF055, 0xF0FF)
  | .ldRegs _ => (0xF065, 0xF0FF)
  | .cls => (0x00E0, 0xFFFF)
  | .drw _ _ _ => (0xD000, 0xF000)
  | .skp _ => (0xE09E, 0xF0FF)
  | .sknp _ => (0xE0A1, 0xF0FF)
  | .ldKey _ => (0xF00A, 0xF0FF)
  | .setDt _ => (0xF015, 0xF0FF)
  | .setSt _ => (0xF018, 0xF0FF)
  | .getDt _ => (0xF007, 0xF0FF)

/-- The first (and only) word of an instruction whose bits are `w`, numbered as spec/opcode_table.json numbers them;
every bit from `nbits` up is 0. -/
def tableWord (nbits w : Nat) : Word := BitVec.ofNat 16 (w % 2 ^ nbits)

/-- What the decoder reads from that instruction, laid out in memory as the hardware stores it (R53). -/
def decodeTableWord (nbits w : Nat) : Option Instr :=
  match decodeBytes [(tableWord nbits w).hiByte, (tableWord nbits w).loByte] with
  | .ok (i, _) => some i
  | .error _ => none

end Sys2Proof
end

