-- ==== Sys2Proof/Config.lean ====
section
/-!
DEFINITION. The implementation parameters of 00_scope.md R7: the fixed ones with the values R7 gives, the
type of the open one (INVALID_OPCODE_POLICY), and the free draws of the random generator.
-/

namespace Sys2Proof.Config

/-- MEM_SIZE (R7): addresses 0x000..0xFFF. -/
@[simp] abbrev memSize : Nat := 4096

/-- STACK_DEPTH (R7). -/
@[simp] abbrev stackDepth : Nat := 16

/-- ROM_BASE, where a ROM is loaded (R7). -/
@[simp] abbrev romBase : Nat := 0x200

/-- ROM_MAX, 4096 - 0x200 (R7). -/
@[simp] abbrev romMax : Nat := 3584

/-- The value of PC after construction and reset (R7, R24). -/
@[simp] abbrev pcReset : Word := 0x200#16

/-- DISPLAY_W (R7). -/
@[simp] abbrev displayW : Nat := 64

/-- DISPLAY_H (R7). -/
@[simp] abbrev displayH : Nat := 32

/-- SPRITE_W (R7). -/
@[simp] abbrev spriteW : Nat := 8

/-- FONT_BASE (R7, D3). -/
@[simp] abbrev fontBase : Word := 0#16

/-- FONT_GLYPH_BYTES (R7, D3). -/
@[simp] abbrev fontGlyphBytes : Word := 5#16

/-- INVALID_OPCODE_POLICY (R7, R8, R94): "caller-selectable policy: halt-and-report or
skip-one-instruction-and-continue". The spec leaves it OPEN, so both are modelled (log 4). -/
inductive InvalidOpcodePolicy where
  | halt
  | skip
  deriving DecidableEq, Repr

/-- `draw8()`: the n-th value of the injected random generator (R8, R131, D24), a FREE VALUE: it has no body, so
every statement about it holds whatever the generator supplies (log 5). -/
opaque drawByte : Nat → Byte

end Sys2Proof.Config
end

