-- ==== Sys2Proof/Machine/State.lean ====
section
/-!
DEFINITION. The machine's state as plain data: the record of 10_state.md R20, the policy the caller selects and the
position of the random generator; the reasons a step can stop; and the state after reset (R37).
-/

namespace Sys2Proof.Machine

/-- The 4096-byte array of R32, held sparsely: the (address, byte) pairs that differ from what the address holds after
construction, addresses strictly rising (log 3). Machine/Memory.lean says how it is read and written. -/
abbrev Memory := List Host.Cell

/-- The display buffer of R34: `disp[y][x]`, 32 rows of 64 pixels. -/
abbrev Grid := Vector (Vector Bool 64) 32

/-- KW, the key-wait state of R30. -/
inductive KeyWait where
  /-- Not suspended, no key recorded. -/
  | run
  /-- Suspended by FX0A with destination VX. -/
  | wait (x : Nibble)
  /-- A press of key k was observed during `wait x`: the next step stores k in VX. -/
  | ready (x k : Nibble)
  deriving DecidableEq, Repr

/-- The error kinds of R180..R185, with what R181..R185 say each records. All of them are SAFE stops: the spec itself
ends the operation there with an error and gives it no other effect (R92, R188; the Skip policy, which goes on, is a
next state and no fault). -/
inductive Fault where
  /-- Raised by `loadRom` alone, for a ROM longer than 3584 bytes (R181, R212); never by a step. Safe. -/
  | romTooLarge
  /-- Raised by `step` for one of the Invalid words of R77 under the Halt policy (R94, R182): the word and its
  address. Safe. -/
  | invalidOpcode (word addr : Word)
  /-- Raised by 2NNN when 16 return addresses are on the stack (R102, R183): the address of the CALL. Safe. -/
  | stackOverflow (addr : Word)
  /-- Raised by 00EE when the stack is empty (R100, R184): the address of the RET. Safe. -/
  | stackUnderflow (addr : Word)
  /-- Raised by instruction fetch beyond 0xFFE, by FX33, FX55 and FX65 beyond 0xFFF, and by the byte operations of
  R51 (R55, R57, R185): the first address above 0xFFF that the access would touch. Safe. -/
  | outOfBoundsAccess (addr : Nat)
  deriving DecidableEq, Repr

/-- The ways a step could have no meaning. No arm of `exec` uses one: all 34 forms are modelled. -/
inductive Refusal where
  /-- An instruction that has no meaning yet; raised by no arm. Safe. -/
  | notModelled (mnemonic : String)
  deriving DecidableEq, Repr

/-- The architectural state of R20, and two fields of the model's own. -/
structure State where
  /-- V0..VF (R21); VF is also the flag register (R23). -/
  v : Vector Byte 16
  /-- The index register (R26). -/
  i : Word
  /-- The program counter (R24). -/
  pc : Word
  /-- The call stack (R27), the most recently pushed address first (log 1). -/
  stack : List Word
  /-- The delay timer (R28). -/
  dt : Byte
  /-- The sound timer (R29). -/
  st : Byte
  /-- Memory (R32). -/
  mem : Memory
  /-- The display buffer (R34). -/
  disp : Grid
  /-- The sixteen key states (R31). -/
  keys : Vector Bool 16
  /-- The key-wait state (R30). -/
  kw : KeyWait
  /-- THE MODEL'S OWN: the argument INVALID_OPCODE_POLICY of the step (R8, R36, R94); no operation writes it (log 4). -/
  policy : Config.InvalidOpcodePolicy
  /-- THE MODEL'S OWN: how many values of the random generator have been consumed (R131, log 5). -/
  draws : Nat
  deriving DecidableEq, Repr

/-- The state after `new()` and `reset()` (R37, R210): font loaded (an empty list of differences, log 3), display
cleared, PC = 0x200, everything else zero, released or empty (log 2); the policy at its default (log 4). -/
def State.reset : State where
  v := Vector.replicate 16 0#8
  i := 0#16
  pc := Config.pcReset
  stack := []
  dt := 0#8
  st := 0#8
  mem := []
  disp := Vector.replicate 32 (Vector.replicate 64 false)
  keys := Vector.replicate 16 false
  kw := .run
  policy := .halt
  draws := 0

end Sys2Proof.Machine
end

