-- ==== Sys2Proof/Machine/Memory.lean ====
section
/-!
DEFINITION. Memory (20_memory.md): what each address holds after construction (the font, R33, and zeros, R37), reading
and writing a byte while keeping the canonical form, sequences of bytes at consecutive addresses (R51), and the
range-checked byte operations of R51.
-/

namespace Sys2Proof.Machine

/-- FONT_DATA: the 80 bytes of the table of R33, glyphs 0..F, five bytes each. -/
def fontData : List Byte :=
  [0xF0, 0x90, 0x90, 0x90, 0xF0,   -- 0
   0x20, 0x60, 0x20, 0x20, 0x70,   -- 1
   0xF0, 0x10, 0xF0, 0x80, 0xF0,   -- 2
   0xF0, 0x10, 0xF0, 0x10, 0xF0] ++ -- 3
  [0x90, 0x90, 0xF0, 0x10, 0x10,   -- 4
   0xF0, 0x80, 0xF0, 0x10, 0xF0,   -- 5
   0xF0, 0x80, 0xF0, 0x90, 0xF0,   -- 6
   0xF0, 0x10, 0x20, 0x40, 0x40] ++ -- 7
  [0xF0, 0x90, 0xF0, 0x90, 0xF0,   -- 8
   0xF0, 0x90, 0xF0, 0x10, 0xF0,   -- 9
   0xF0, 0x90, 0xF0, 0x90, 0x90,   -- A
   0xE0, 0x90, 0xE0, 0x90, 0xE0] ++ -- B
  [0xF0, 0x80, 0x80, 0x80, 0xF0,   -- C
   0xE0, 0x90, 0x90, 0x90, 0xE0,   -- D
   0xF0, 0x80, 0xF0, 0x80, 0xF0,   -- E
   0xF0, 0x80, 0xF0, 0x80, 0x80]   -- F

/-- What an unlisted address reads as: its contents after construction (R37), the font from address 0 and 0x00
above it. -/
def initialByte (a : Nat) : Byte := fontData.getD a 0x00#8

/-- `mem[a]` (R12). -/
def Memory.get : Memory → Nat → Byte
  | [], a => initialByte a
  | (k, b) :: m, a => if a = k then b else Memory.get m a

/-- Put a pair where the addresses stay rising. -/
def Memory.insert (a : Nat) (b : Byte) : Memory → Memory
  | [] => [(a, b)]
  | (k, c) :: m => if a < k then (a, b) :: (k, c) :: m else (k, c) :: Memory.insert a b m

/-- `mem[a] <- b`. The canonical form is kept: the old pair goes, and a new one comes only if `b` is not what `a` reads
as unlisted. -/
def Memory.set (m : Memory) (a : Nat) (b : Byte) : Memory :=
  if b = initialByte a then m.filter (fun c => c.1 != a)
  else Memory.insert a b (m.filter (fun c => c.1 != a))

/-- The canonical form: addresses strictly rising and inside the 4096 bytes of R32, and no pair equal to what its
address reads as unlisted. -/
abbrev Memory.wf (m : Memory) : Prop :=
  m.Pairwise (fun c d => c.1 < d.1) ∧ ∀ c ∈ m, c.1 < Config.memSize ∧ c.2 ≠ initialByte c.1

/-- One-byte writes at consecutive addresses from `a` up, in order (R51). -/
def Memory.setBytes (m : Memory) (a : Nat) : List Byte → Memory
  | [] => m
  | b :: bs => Memory.setBytes (m.set a b) (a + 1) bs

/-- `MemRead(a, 2)`: two bytes big-endian, the byte at `a` most significant (R12, R53). -/
def Memory.getWord (m : Memory) (a : Nat) : Word := m.get a ++ m.get (a + 1)

/-- `MemWrite(a, 2, w)`: two bytes big-endian (R12, R53). -/
def Memory.setWord (m : Memory) (a : Nat) (w : Word) : Memory :=
  m.setBytes a [w.extractLsb' 8 8, w.extractLsb' 0 8]

/-- `read_byte(addr)` of R51: fails if `addr` is outside [0,4095]. -/
def Memory.readByte (m : Memory) (a : Nat) : Except Fault Byte :=
  if a < Config.memSize then .ok (m.get a) else .error (.outOfBoundsAccess a)

/-- `write_byte(addr, value)` of R51: fails if `addr` is outside [0,4095]. -/
def Memory.writeByte (m : Memory) (a : Nat) (b : Byte) : Except Fault Memory :=
  if a < Config.memSize then .ok (m.set a b) else .error (.outOfBoundsAccess a)

end Sys2Proof.Machine
end

