-- ==== Sys2Proof/Machine/Ops.lean ====
section
/-!
DEFINITION. The named operations over the state: registers, PC, stack, timers, keys (00_scope.md R11); raising an error,
the one shared operation by which a step ends in one (R13, R92); and the parts of the step cycle that are no
instruction: fetch, the default advance, an Invalid word, and the resume from a key-wait (40_step.md).
THE SPEC HAS NO TRAP ENTRY AND NO TRAP RETURN (R188, R189): an error saves nothing, changes no mode and reaches no
handler, so `raise` is all of "taking an exception" on this hardware and there is no return beside it.
-/

namespace Sys2Proof.Machine

/-- What an operation of the machine answers. -/
abbrev Result := Host.Outcome State Fault Refusal

/-- `raise E(info)` (R13): the step ends with the error and writes no state at all (R92, R188). -/
def raise (e : Fault) : Result := .fault e

/-- `V[x]` (R11, R21). -/
def State.getV (s : State) (x : Nibble) : Byte := s.v[x.toNat]'x.isLt

/-- `V[x] <- b` (R11, R22: no register is hardwired). -/
def State.setV (s : State) (x : Nibble) (b : Byte) : State := { s with v := s.v.set x.toNat b x.isLt }

/-- `I <- w` (R11). -/
def State.setI (s : State) (w : Word) : State := { s with i := w }

/-- `PC <- w` (R11). -/
def State.setPc (s : State) (w : Word) : State := { s with pc := w }

/-- `DT <- b` (R11). -/
def State.setDt (s : State) (b : Byte) : State := { s with dt := b }

/-- `ST <- b` (R11). -/
def State.setSt (s : State) (b : Byte) : State := { s with st := b }

/-- `KW <- k` (R11, R30). -/
def State.setKw (s : State) (k : KeyWait) : State := { s with kw := k }

/-- The stack replaced (R27). -/
def State.setStack (s : State) (l : List Word) : State := { s with stack := l }

/-- Memory replaced. -/
def State.setMem (s : State) (m : Memory) : State := { s with mem := m }

/-- The display replaced. -/
def State.setDisp (s : State) (g : Grid) : State := { s with disp := g }

/-- `key[k]` (R11, R31). -/
def State.getKey (s : State) (k : Nibble) : Bool := s.keys[k.toNat]'k.isLt

/-- `key[k] <- p` (R11, R31). -/
def State.setKeyState (s : State) (k : Nibble) (p : Bool) : State := { s with keys := s.keys.set k.toNat p k.isLt }

/-- One value of the generator has been consumed (R131). -/
def State.nextDraw (s : State) : State := { s with draws := s.draws + 1 }

/-- `depth` (R11, R27). -/
def State.depth (s : State) : Nat := s.stack.length

/-- `push(w)` (R11). -/
def State.push (s : State) (w : Word) : State := s.setStack (w :: s.stack)

/-- PC + 2: the default advance past the fetched word (R93), and a taken skip's (R114). -/
def State.advance (s : State) : State := s.setPc (s.pc + 2)

/-- `a`, the address of the executing instruction: inside a handler PC reads a + 2 (R93). -/
def State.instrAddr (s : State) : Word := s.pc - 2

/-- The first address above 0xFFF of an access that starts at `a` and reaches beyond 0xFFF: max(a, 0x1000)
(R55, R57, R185). -/
def firstOutside (a : Nat) : Nat := max a Config.memSize

/-- Fetch (R91, R57): the big-endian word at PC, or OutOfBoundsAccess if PC > 0xFFE. -/
def State.fetch (s : State) : Except Fault Word :=
  if 0xFFE < s.pc.toNat then .error (.outOfBoundsAccess (firstOutside s.pc.toNat))
  else .ok (s.mem.getWord s.pc.toNat)

/-- An Invalid word w at PC (R94): under Halt the step raises and PC stays; under Skip PC passes the word and the
machine goes on. The report that goes to the caller under both policies is `State.invalidReport` (log 4). -/
def State.invalidWord (s : State) (w : Word) : Result :=
  match s.policy with
  | .halt => raise (.invalidOpcode w s.pc)
  | .skip => .next s.advance

/-- The resuming step (R96): k goes to VX, PC passes the FX0A, KW becomes Run, and no instruction executes. -/
def State.resume (s : State) (x k : Nibble) : State := ((s.setV x (k.setWidth 8)).advance).setKw .run

/-- The InvalidOpcode error that a step from `s` reports to its caller, under either policy (R94, R182); none if the
step meets no Invalid word. -/
def State.invalidReport (s : State) : Option Fault :=
  match s.kw, s.fetch with
  | .run, .ok w =>
    match decode w with
    | .error _ => some (.invalidOpcode w s.pc)
    | .ok _ => none
  | _, _ => none

/-- `s` with the word `w` where the next step fetches it, not suspended and with PC inside memory, so that the very
next step runs it: the load from outside that State.withFetchWord stands for (log 9). -/
def State.placeWord (s : State) (w : Word) : State :=
  let a : Word := if 0xFFE < s.pc.toNat then Config.pcReset else s.pc
  (((s.setPc a).setKw .run).setMem (s.mem.setWord a.toNat w))

end Sys2Proof.Machine
end

