-- ==== Sys2Proof/Machine/Flags.lean ====
section
/-!
DEFINITION. The flags, all of them in VF (10_state.md R23): carry, no-borrow, the bit shifted out, collision. Each
instruction of R23's list writes its result first and VF last (R132, D5), with 0 or 1.
-/

namespace Sys2Proof.Machine

/-- `V[F] <- f ? 1 : 0` (R23). -/
def State.setFlag (s : State) (f : Bool) : State := s.setV 0xF (if f then 0x01 else 0x00)

/-- The result to VX, then the flag to VF, so that for X = F the flag is what VF holds (R132, D5). -/
def State.setResultFlag (s : State) (x : Nibble) (r : Byte) (f : Bool) : State := (s.setV x r).setFlag f

/-- Carry of a + b: the exact sum exceeds 255 (R126). -/
def carryFlag (a b : Byte) : Bool := 255 < a.toNat + b.toNat

/-- No borrow in a - b: minuend ≥ subtrahend (R127, R129). -/
def noBorrowFlag (a b : Byte) : Bool := b.toNat ≤ a.toNat

/-- The bit a right shift by one puts out: old bit 0 (R128). -/
def shiftOutRight (a : Byte) : Bool := a.getLsbD 0

/-- The bit a left shift by one puts out: old bit 7 (R130). -/
def shiftOutLeft (a : Byte) : Bool := a.getLsbD 7

end Sys2Proof.Machine
end

