-- ==== Sys2Proof/Machine/Operands.lean ====
section
/-!
DEFINITION. The computed operands (30_encoding.md R73): the digit or key a register names by its low nibble, the font
address, the jump-with-offset target, the byte range at I, the sprite's bytes and its start coordinates, and the block
of registers V0..VX.
-/

namespace Sys2Proof.Machine

/-- `V[x] & 0x0F`: the digit of FX29 (R142, D16) and the key of EX9E and EXA1 (R160, R161, D17). -/
def State.lowNibble (s : State) (x : Nibble) : Nibble := (s.getV x).setWidth 4

/-- FONT_BASE + 5 * d, the address of glyph d (R142, R33). -/
def fontAddress (d : Nibble) : Word := Config.fontBase + Config.fontGlyphBytes * d.setWidth 16

/-- NNN + V0, not masked to 12 bits (R103, D14). -/
def State.jumpOffsetTarget (s : State) (nnn : Addr) : Word := nnn.toWord + (s.getV 0).toWord

/-- I + k reaches beyond 0xFFF, computed on unbounded integers (R55, section 44's template). -/
def State.rangeOutside (s : State) (k : Nat) : Bool := 0xFFF < s.i.toNat + k

/-- OutOfBoundsAccess of a data access at I (R55). -/
def State.raiseOutside (s : State) : Result := raise (.outOfBoundsAccess (firstOutside s.i.toNat))

/-- The N sprite bytes at I..I+N-1 modulo 4096 (R56, R152). -/
def State.spriteRows (s : State) (n : Nibble) : List Byte :=
  (List.range n.toNat).map fun r => s.mem.get ((s.i.toNat + r) % Config.memSize)

/-- VX mod 64, a sprite's first column (R152). -/
def State.spriteX (s : State) (x : Nibble) : Nat := (s.getV x).toNat % Config.displayW

/-- VY mod 32, a sprite's first row (R152). -/
def State.spriteY (s : State) (y : Nibble) : Nat := (s.getV y).toNat % Config.displayH

/-- V0..VX in order, X + 1 bytes (R144). -/
def State.regBlock (s : State) (x : Nibble) : List Byte := s.v.toList.take (x.toNat + 1)

/-- `V[j] <- mem[a + j]` for j = 0, 1, … (the first `k` registers of the file), R145. -/
def loadBlock (m : Memory) (a k : Nat) (v : Vector Byte 16) : Vector Byte 16 :=
  v.mapFinIdx fun j b _ => if j < k then m.get (a + j) else b

/-- The decimal digits of a byte: hundreds, tens, ones (R143). -/
def bcdDigits (b : Byte) : List Byte := [b / 100, (b / 10) % 10, b % 10]

end Sys2Proof.Machine
end

