-- ==== Sys2Proof/Machine/Arithmetic.lean ====
section
/-!
DEFINITION. Register and constant arithmetic (43_arithmetic.md): unsigned, modulo 256, no traps (R132). Both operands
are read before any write; where VF takes a flag it is written last.
-/

namespace Sys2Proof.Machine

/-- LD VX, NN (R120). -/
def execLdImm (x : Nibble) (nn : Byte) (s : State) : Result := .next (s.setV x nn)

/-- ADD VX, NN (R121, C1): no flag, even when the sum exceeds 255. -/
def execAddImm (x : Nibble) (nn : Byte) (s : State) : Result := .next (s.setV x (s.getV x + nn))

/-- LD VX, VY (R122). -/
def execLdReg (x y : Nibble) (s : State) : Result := .next (s.setV x (s.getV y))

/-- OR VX, VY (R123, D20): VF is not reset. -/
def execOrReg (x y : Nibble) (s : State) : Result := .next (s.setV x (s.getV x ||| s.getV y))

/-- AND VX, VY (R124, D20): VF is not reset. -/
def execAndReg (x y : Nibble) (s : State) : Result := .next (s.setV x (s.getV x &&& s.getV y))

/-- XOR VX, VY (R125, D20): VF is not reset. -/
def execXorReg (x y : Nibble) (s : State) : Result := .next (s.setV x (s.getV x ^^^ s.getV y))

/-- ADD VX, VY (R126): VF is the carry. -/
def execAddReg (x y : Nibble) (s : State) : Result :=
  .next (s.setResultFlag x (s.getV x + s.getV y) (carryFlag (s.getV x) (s.getV y)))

/-- SUB VX, VY (R127): VX - VY, VF is the no-borrow. -/
def execSubReg (x y : Nibble) (s : State) : Result :=
  .next (s.setResultFlag x (s.getV x - s.getV y) (noBorrowFlag (s.getV x) (s.getV y)))

/-- SHR VX (R128, D4): VX in place by one, the Y field ignored; VF is old bit 0. -/
def execShr (x _y : Nibble) (s : State) : Result :=
  .next (s.setResultFlag x (s.getV x >>> 1) (shiftOutRight (s.getV x)))

/-- SUBN VX, VY (R129): VY - VX into VX, VF is the no-borrow with VY as the minuend. -/
def execSubn (x y : Nibble) (s : State) : Result :=
  .next (s.setResultFlag x (s.getV y - s.getV x) (noBorrowFlag (s.getV y) (s.getV x)))

/-- SHL VX (R130, D4): VX in place by one, the Y field ignored; VF is old bit 7. -/
def execShl (x _y : Nibble) (s : State) : Result :=
  .next (s.setResultFlag x (s.getV x <<< 1) (shiftOutLeft (s.getV x)))

/-- The effect of CXNN for the draw `r`: VX <- r & NN, and one draw is consumed (R131). -/
def rndWith (r : Byte) (x : Nibble) (nn : Byte) (s : State) : State := (s.setV x (r &&& nn)).nextDraw

/-- RND VX, NN (R131, D24): the draw is a free value (log 5). -/
def execRnd (x : Nibble) (nn : Byte) (s : State) : Result := .next (rndWith (Config.drawByte s.draws) x nn s)

end Sys2Proof.Machine
end

