-- ==== Sys2Proof/Machine/ControlFlow.lean ====
section
/-!
DEFINITION. Control flow (41_control_flow.md): RET, JP, CALL, JP V0. On entry PC reads a + 2 (40_step.md R93). Targets
need no alignment and are not checked when written; one beyond 0xFFE faults at the next fetch (R91).
-/

namespace Sys2Proof.Machine

/-- JP NNN (R101). -/
def execJp (nnn : Addr) (s : State) : Result := .next (s.setPc nnn.toWord)

/-- CALL NNN (R102): StackOverflow when 16 addresses are on the stack, before any write. -/
def execCall (nnn : Addr) (s : State) : Result :=
  if Config.stackDepth ≤ s.depth then raise (.stackOverflow s.instrAddr)
  else .next ((s.push s.pc).setPc nnn.toWord)

/-- RET (R100): StackUnderflow when the stack is empty; the popped value is used as is. -/
def execRet (s : State) : Result :=
  match s.stack with
  | [] => raise (.stackUnderflow s.instrAddr)
  | r :: rest => .next ((s.setStack rest).setPc r)

/-- JP V0, NNN (R103, C4): the X nibble is part of NNN and selects no register. -/
def execJpV0 (nnn : Addr) (s : State) : Result := .next (s.setPc (s.jumpOffsetTarget nnn))

end Sys2Proof.Machine
end

