-- ==== Sys2Proof/Machine/Blit.lean ====
section
/-!
DEFINITION. The display buffer and the XOR sprite blitter (45_display.md R150, R153..R155): `clear`, `draw_sprite` and
a pixel's value. The wrapping edge policy of R154 stands in one place, `Grid.pixel` and `Grid.toggle`, which take any
coordinates modulo the display's size.
-/

namespace Sys2Proof.Machine

/-- `clear()`: every pixel off (R150, R151). -/
def Grid.clear : Grid := Vector.replicate 32 (Vector.replicate 64 false)

/-- `disp[y mod 32][x mod 64]` (R34, R154). -/
def Grid.pixel (g : Grid) (y x : Nat) : Bool :=
  (g[y % 32]'(Nat.mod_lt y (by decide)))[x % 64]'(Nat.mod_lt x (by decide))

/-- `disp[y mod 32][x mod 64] <- not disp[y mod 32][x mod 64]` (R153, R154). -/
def Grid.toggle (g : Grid) (y x : Nat) : Grid :=
  g.set (y % 32)
    ((g[y % 32]'(Nat.mod_lt y (by decide))).set (x % 64) (!g.pixel y x) (Nat.mod_lt x (by decide)))
    (Nat.mod_lt y (by decide))

/-- One bit of a sprite: a 1 bit toggles its pixel and hits if the pixel was on; a 0 bit leaves it (R153, R155). The
pair is the display and whether a pixel has been turned off so far. -/
def drawBit (acc : Grid × Bool) (y x : Nat) (bit : Bool) : Grid × Bool :=
  if bit then (acc.1.toggle y x, acc.2 || acc.1.pixel y x) else acc

/-- Columns `c`, `c + 1`, … of one sprite byte, `k` of them: column c is bit 7 - c (R153, D7). -/
def drawColumns (y x0 : Nat) (b : Byte) : (k c : Nat) → Grid × Bool → Grid × Bool
  | 0, _, acc => acc
  | k + 1, c, acc => drawColumns y x0 b k (c + 1) (drawBit acc y (x0 + c) (b.getLsbD (7 - c)))

/-- One sprite byte: eight columns from the left (R153). -/
def drawRow (y x0 : Nat) (b : Byte) (acc : Grid × Bool) : Grid × Bool := drawColumns y x0 b Config.spriteW 0 acc

/-- The sprite's bytes, one display row each, downward (R153). -/
def drawRows (x0 : Nat) : (y : Nat) → List Byte → Grid × Bool → Grid × Bool
  | _, [], acc => acc
  | y, b :: bs, acc => drawRows x0 (y + 1) bs (drawRow y x0 b acc)

/-- `draw_sprite(x, y, rows) -> collided` (R150): the display after the draw, and whether a pixel that was on is
off after it (R155). -/
def drawSprite (g : Grid) (x0 y0 : Nat) (rows : List Byte) : Grid × Bool := drawRows x0 y0 rows (g, false)

end Sys2Proof.Machine
end

