-- ==== Sys2Proof/Machine/Display.lean ====
section
/-!
DEFINITION. The display instructions (45_display.md): CLS and DRW.
-/

namespace Sys2Proof.Machine

/-- CLS (R151): every pixel off, VF not written. -/
def execCls (s : State) : Result := .next (s.setDisp Grid.clear)

/-- DRW VX, VY, N (R152): the coordinates are read before VF is overwritten by the collision flag; sprite addresses
wrap (R56), so no error. -/
def execDrw (x y n : Nibble) (s : State) : Result :=
  let drawn := drawSprite s.disp (s.spriteX x) (s.spriteY y) (s.spriteRows n)
  .next ((s.setDisp drawn.1).setFlag drawn.2)

end Sys2Proof.Machine
end

