-- ==== Sys2Proof/Machine/IndexMemory.lean ====
section
/-!
DEFINITION. The index register and memory (44_index_memory.md). Addressing is I plus a non-negative offset, I is never
modified by an access (D19), and a range beyond 0xFFF raises before any byte is read or written (20_memory.md R55).
-/

namespace Sys2Proof.Machine

/-- LD I, NNN (R140). -/
def execLdI (nnn : Addr) (s : State) : Result := .next (s.setI nnn.toWord)

/-- ADD I, VX (R141, D15): modulo 65536, VF unchanged. -/
def execAddI (x : Nibble) (s : State) : Result := .next (s.setI (s.i + (s.getV x).toWord))

/-- LD F, VX (R142, D16). -/
def execLdF (x : Nibble) (s : State) : Result := .next (s.setI (fontAddress (s.lowNibble x)))

/-- LD B, VX (R143): hundreds, tens and ones of VX at I, I + 1, I + 2. -/
def execLdB (x : Nibble) (s : State) : Result :=
  if s.rangeOutside 2 then s.raiseOutside
  else .next (s.setMem (s.mem.setBytes s.i.toNat (bcdDigits (s.getV x))))

/-- LD [I], VX (R144): V0..VX to I..I+X. -/
def execStRegs (x : Nibble) (s : State) : Result :=
  if s.rangeOutside x.toNat then s.raiseOutside
  else .next (s.setMem (s.mem.setBytes s.i.toNat (s.regBlock x)))

/-- LD VX, [I] (R145): V0..VX from I..I+X. -/
def execLdRegs (x : Nibble) (s : State) : Result :=
  if s.rangeOutside x.toNat then s.raiseOutside
  else .next { s with v := loadBlock s.mem s.i.toNat (x.toNat + 1) s.v }

end Sys2Proof.Machine
end

