-- ==== Sys2Proof/Machine/Skip.lean ====
section
/-!
DEFINITION. The conditional skips (42_skip.md). The mechanism is R114's, shared with the keypad skips: the skipped word
is not fetched, decoded or checked.
-/

namespace Sys2Proof.Machine

/-- `if cond then PC <- PC + 2` (R114). -/
def skipIf (cond : Bool) (s : State) : State := if cond then s.advance else s

/-- SE VX, NN (R110). -/
def execSeImm (x : Nibble) (nn : Byte) (s : State) : Result := .next (skipIf (s.getV x == nn) s)

/-- SNE VX, NN (R111). -/
def execSneImm (x : Nibble) (nn : Byte) (s : State) : Result := .next (skipIf (s.getV x != nn) s)

/-- SE VX, VY (R112). -/
def execSeReg (x y : Nibble) (s : State) : Result := .next (skipIf (s.getV x == s.getV y) s)

/-- SNE VX, VY (R113). -/
def execSneReg (x y : Nibble) (s : State) : Result := .next (skipIf (s.getV x != s.getV y) s)

end Sys2Proof.Machine
end

