-- ==== Sys2Proof/Machine/Keypad.lean ====
section
/-!
DEFINITION. The keypad instructions (46_keypad.md): SKP, SKNP and the wait for a key.
-/

namespace Sys2Proof.Machine

/-- SKP VX (R160): the low nibble of VX names the key (D17). -/
def execSkp (x : Nibble) (s : State) : Result := .next (skipIf (s.getKey (s.lowNibble x)) s)

/-- SKNP VX (R161). -/
def execSknp (x : Nibble) (s : State) : Result := .next (skipIf (!s.getKey (s.lowNibble x)) s)

/-- LD VX, K (R162, C5): the suspension begins and PC goes back to a, undoing the default advance. -/
def execLdKey (x : Nibble) (s : State) : Result := .next ((s.setKw (.wait x)).setPc s.instrAddr)

end Sys2Proof.Machine
end

