-- ==== Sys2Proof/Machine/Timers.lean ====
section
/-!
DEFINITION. The timer instructions (47_timers.md). The countdown itself is the host's `tick_timers` (Machine/Ports.lean).
-/

namespace Sys2Proof.Machine

/-- LD DT, VX (R171). -/
def execSetDt (x : Nibble) (s : State) : Result := .next (s.setDt (s.getV x))

/-- LD ST, VX (R172). -/
def execSetSt (x : Nibble) (s : State) : Result := .next (s.setSt (s.getV x))

/-- LD VX, DT (R170). -/
def execGetDt (x : Nibble) (s : State) : Result := .next (s.setV x s.dt)

end Sys2Proof.Machine
end

