-- ==== Sys2Proof/Machine/Step.lean ====
section
/-!
DEFINITION. The step (40_step.md R90), in R186's order: the key-wait, the fetch, the decode, the instruction. A suspended
step and a resuming step answer a next state and raise nothing; every error leaves the state as it was (R92), which is
why a fault carries none.
-/

namespace Sys2Proof.Machine

/-- `step()` (R90): executes exactly one instruction or resumes from key-wait suspension. -/
def step (s : State) : Host.Outcome State Fault Refusal :=
  match s.kw with
  | .wait _ => .next s
  | .ready x k => .next (s.resume x k)
  | .run =>
    match s.fetch with
    | .error e => raise e
    | .ok w =>
      match decode w with
      | .error _ => s.invalidWord w
      | .ok i => exec i s.advance

/-- `s` with an instruction of spec/opcode_table.json where the next step fetches it (log 9). -/
def State.withFetchWord (s : State) (nbits w : Nat) : State := s.placeWord (tableWord nbits w)

end Sys2Proof.Machine
end

