-- ==== Sys2Proof/Machine/Ports.lean ====
section
/-!
DEFINITION. The host interface (60_exceptions.md R197): every operation the host may call, what it writes and what it
gives back. Operations happen only between steps, one at a time (R187), so a session is a list of them; the host chooses
their order freely (R191, R216).
-/

namespace Sys2Proof.Machine

/-- The numeric code of an error kind (R180..R185, D34). -/
def Fault.code : Fault → Nat
  | .romTooLarge => 0
  | .invalidOpcode _ _ => 1
  | .stackOverflow _ => 2
  | .stackUnderflow _ => 3
  | .outOfBoundsAccess _ => 4

/-- `new()` (R210), with the policy the caller selects (R8, R94). -/
def State.new (p : Config.InvalidOpcodePolicy) : State := { State.reset with policy := p }

/-- `reset()` (R211): every element of R20 at its construction value; the random generator is not part of the state and
goes on where it was, and the policy stays the caller's. -/
def State.resetOp (s : State) : State := { State.reset with policy := s.policy, draws := s.draws }

/-- `load_rom(rom)` (R212): the bytes at 0x200 and up, or RomTooLarge with nothing written. -/
def State.loadRom (s : State) (rom : List Byte) : Result :=
  if Config.romMax < rom.length then raise .romTooLarge
  else .next (s.setMem (s.mem.setBytes Config.romBase rom))

/-- One tick of one timer: Active counts down by 1, Idle stays (R191, R192). -/
def tickTimer (t : Byte) : Byte := if t = 0 then 0 else t - 1

/-- `tick_timers()` (R191): each timer once, nothing else. -/
def State.tickTimers (s : State) : State := (s.setDt (tickTimer s.dt)).setSt (tickTimer s.st)

/-- KW after the press state of key k goes from `was` to `p`: a press transition during Wait(x) records the key
(R194); a held key, a release, or a press outside a wait changes nothing (D37, D38). -/
def keyWaitAfter (kw : KeyWait) (k : Nibble) (was p : Bool) : KeyWait :=
  match kw with
  | .wait x => if p && !was then .ready x k else .wait x
  | other => other

/-- `set_key(k, p)` (R194). -/
def State.setKey (s : State) (k : Nibble) (p : Bool) : State :=
  (s.setKeyState k p).setKw (keyWaitAfter s.kw k (s.getKey k) p)

/-- `is_pressed(k)` (R194): key[k], nothing changed. -/
def State.isPressed (s : State) (k : Nibble) : Bool := s.getKey k

/-- `display()` (R196): a read-only view of disp. -/
def State.display (s : State) : Grid := s.disp

/-- `sound_active()` (R193): ST > 0. -/
def State.soundActive (s : State) : Bool := 0 < s.st.toNat

/-- The operations of R197 on an instance (its `new()` is `State.new`), and the query of R194. -/
inductive HostOp where
  | loadRom (rom : List Byte)
  | step
  | tickTimers
  | setKey (k : Nibble) (p : Bool)
  | isPressed (k : Nibble)
  | display
  | soundActive
  | reset
  deriving DecidableEq, Repr

/-- What the core gives back (R197). -/
inductive Reply where
  /-- Nothing is returned. -/
  | nothing
  /-- `Ok`. -/
  | ok
  /-- An error of R181..R185. -/
  | error (e : Fault)
  /-- The model has no meaning for the instruction; no instruction answers so. -/
  | refused (r : Refusal)
  /-- A truth value. -/
  | bool (b : Bool)
  /-- The read-only grid. -/
  | pixels (g : Grid)
  deriving DecidableEq, Repr

/-- `step()` as the host sees it: the state it leaves and what it returns. An error leaves the state as it was (R92);
an Invalid word is reported under both policies, and under Skip PC has passed it (R94). -/
def State.stepCall (s : State) : State × Reply :=
  match step s with
  | .next t =>
    match s.invalidReport with
    | none => (t, .ok)
    | some e => (t, .error e)
  | .fault e => (s, .error e)
  | .refused r => (s, .refused r)

/-- `load_rom` as the host sees it (R212). -/
def State.loadRomCall (s : State) (rom : List Byte) : State × Reply :=
  match s.loadRom rom with
  | .next t => (t, .ok)
  | .fault e => (s, .error e)
  | .refused r => (s, .refused r)

/-- One operation of the host: the state it leaves and what it returns (R197). -/
def perform (op : HostOp) (s : State) : State × Reply :=
  match op with
  | .loadRom rom => s.loadRomCall rom
  | .step => s.stepCall
  | .tickTimers => (s.tickTimers, .nothing)
  | .setKey k p => (s.setKey k p, .nothing)
  | .isPressed k => (s, .bool (s.isPressed k))
  | .display => (s, .pixels s.display)
  | .soundActive => (s, .bool s.soundActive)
  | .reset => (s.resetOp, .nothing)

/-- A session: operations one after another (R62, R187), the state at its end. -/
def session : List HostOp → State → State
  | [], s => s
  | op :: ops, s => session ops (perform op s).1

end Sys2Proof.Machine
end

