-- ==== Sys2Proof/Safety.lean ====
section
/-!
DEFINITION. The terms claims are stated in: the parts of the state and what it is to leave them unchanged; which parts
each instruction may write, as the spec's rules list them; the invariant of the machine; and what ends a run (R98).
-/

namespace Sys2Proof.Machine

/-- The parts of the state of R20 (with the model's own two): one general register, I, PC, the stack, a timer, one byte
of memory, one pixel, one key, KW, the policy, the generator's position. -/
inductive Part where
  | reg (x : Nibble)
  | index
  | pc
  | stack
  | dt
  | st
  | byte (a : Nat)
  | pixel (y x : Nat)
  | key (k : Nibble)
  | kw
  | policy
  | draws
  deriving DecidableEq, Repr

/-- The part holds the same in `t` as in `s`. -/
def Part.same (s t : State) : Part → Prop
  | .reg x => t.getV x = s.getV x
  | .index => t.i = s.i
  | .pc => t.pc = s.pc
  | .stack => t.stack = s.stack
  | .dt => t.dt = s.dt
  | .st => t.st = s.st
  | .byte a => t.mem.get a = s.mem.get a
  | .pixel y x => t.disp.pixel y x = s.disp.pixel y x
  | .key k => t.getKey k = s.getKey k
  | .kw => t.kw = s.kw
  | .policy => t.policy = s.policy
  | .draws => t.draws = s.draws

/-- Every part outside `touched` is unchanged from `s` to `t`. -/
def KeepsAllBut (touched : Part → Prop) (s t : State) : Prop := ∀ p, ¬ touched p → p.same s t

/-- A part is one of the listed ones. -/
def oneOf (l : List Part) (p : Part) : Prop := p ∈ l

/-- What an instruction may write, executed from `s` (whose PC already reads a + 2): the targets of its rule in 41 to 47,
and nothing else. -/
def writes (i : Instr) (s : State) (p : Part) : Prop :=
  match i with
  | .jp _ | .jpV0 _ => p = .pc
  | .call _ | .ret => p = .pc ∨ p = .stack
  | .seImm _ _ | .sneImm _ _ | .seReg _ _ | .sneReg _ _ | .skp _ | .sknp _ => p = .pc
  | .ldImm x _ | .addImm x _ | .ldReg x _ | .orReg x _ | .andReg x _ | .xorReg x _ | .getDt x => p = .reg x
  | .addReg x _ | .subReg x _ | .shr x _ | .subn x _ | .shl x _ => p = .reg x ∨ p = .reg 0xF
  | .rnd x _ => p = .reg x ∨ p = .draws
  | .ldI _ | .addI _ | .ldF _ => p = .index
  | .ldB _ => ∃ k, k < 3 ∧ p = .byte (s.i.toNat + k)
  | .stRegs x => ∃ k, k ≤ x.toNat ∧ p = .byte (s.i.toNat + k)
  | .ldRegs x => ∃ y : Nibble, y ≤ x ∧ p = .reg y
  | .cls => ∃ y x, p = .pixel y x
  | .drw _ _ _ => p = .reg 0xF ∨ ∃ y x, p = .pixel y x
  | .ldKey _ => p = .kw ∨ p = .pc
  | .setDt _ => p = .dt
  | .setSt _ => p = .st

/-- The sprite `rows` drawn at column x0, row y0 has a 1 bit that lands on the pixel at column x, row y: the pixel is
r rows below and c columns right of the start, both counted around the edges (R153, R154), r is a row of the sprite, c
one of its eight columns, and bit 7 - c of byte r is 1. -/
def spriteCovers (rows : List Byte) (x0 y0 y x : Nat) : Bool :=
  let r := (y % 32 + 32 - y0 % 32) % 32
  let c := (x % 64 + 64 - x0 % 64) % 64
  c < 8 && (rows[r]?.getD 0).getLsbD (7 - c)

/-- The invariant of the machine: memory keeps its canonical form (log 3); depth ≤ 16 (R27); a return address is at
most 0x1000 (R100); PC is at most 0x10FE (R25); and a suspended or resuming machine stands on a word it has fetched
(R95, R162). -/
structure State.Inv (s : State) : Prop where
  memCanonical : s.mem.wf
  depthBound : s.depth ≤ 16
  returnBound : ∀ r ∈ s.stack, r.toNat ≤ 0x1000
  pcBound : s.pc.toNat ≤ 0x10FE
  waitFetched : s.kw ≠ .run → s.pc.toNat ≤ 0xFFE

/-- The machine is about to execute `i`: it is not suspended, the fetch is in range, and the word at PC decodes to
`i` (R90, R91). -/
def State.executes (s : State) (i : Instr) : Prop :=
  s.kw = .run ∧ s.pc.toNat ≤ 0xFFE ∧ decode (s.mem.getWord s.pc.toNat) = .ok i

/-- The machine is about to meet the Invalid word `w` (R77, R94). -/
def State.meetsInvalid (s : State) (w : Word) : Prop :=
  s.kw = .run ∧ s.pc.toNat ≤ 0xFFE ∧ w = s.mem.getWord s.pc.toNat ∧ ∃ e, decode w = .error e

/-- The word at PC is `1NNN` with NNN = PC: the conventional end of a program (R98 (b)). -/
def State.selfLoop (s : State) : Prop := ∃ nnn : Addr, s.executes (.jp nnn) ∧ s.pc = nnn.toWord

/-- END OF RUN of R98: a step raises an error, a self-loop, or suspended with no further input. -/
def State.endOfRun (s : State) : Prop := (∃ e, step s = .fault e) ∨ s.selfLoop ∨ ∃ x, s.kw = .wait x

end Sys2Proof.Machine
end

