-- ==== Sys2Proof/Certificates/Slice0/Obligations.lean ====
section
/-!
DEFINITION. The statements for the provers. Where one is about `exec`, PC on entry already reads a + 2, with a the
instruction's address (40_step.md R93); where it is about `step`, PC is a. A statement that rests on a decision of
92_eei_decisions.md says so and names it.
-/

open Sys2Proof Sys2Proof.Machine

-- ==== Encoding (30_encoding.md) ====

/-- Words written out from the patterns of R74, one or more of every family, decode to the instruction they stand for.
The patterns but 00E0 are the spec's decision D1 ("the conventional CHIP-8 encoding table"). -/
def Obligations.WordsOfTheSpecDecode : Prop :=
  decode 0x00E0 = .ok .cls ∧ decode 0x00EE = .ok .ret ∧ decode 0x1234 = .ok (.jp 0x234) ∧
  decode 0x2400 = .ok (.call 0x400) ∧ decode 0xB300 = .ok (.jpV0 0x300) ∧ decode 0x3310 = .ok (.seImm 3 0x10) ∧
  decode 0x9120 = .ok (.sneReg 1 2) ∧ decode 0x7001 = .ok (.addImm 0 0x01) ∧ decode 0x8235 = .ok (.subReg 2 3) ∧
  decode 0x8F1E = .ok (.shl 0xF 1) ∧ decode 0xC10F = .ok (.rnd 1 0x0F) ∧ decode 0xA300 = .ok (.ldI 0x300) ∧
  decode 0xF265 = .ok (.ldRegs 2) ∧ decode 0xD015 = .ok (.drw 0 1 5) ∧ decode 0xE59E = .ok (.skp 5) ∧
  decode 0xF50A = .ok (.ldKey 5) ∧ decode 0xF118 = .ok (.setSt 1)

/-- DECODE AND ENCODE AGREE, for every instruction with every operand at every value: every instruction is well formed,
and the decoder reads its word back as it. The patterns are the spec's decision D1. -/
def Obligations.DecodeOfEncodeGivesTheInstruction : Prop :=
  ∀ i : Instr, i.wf = true ∧ decode (encode i) = .ok i

/-- The other direction: a word that decodes is the encoding of the instruction it decodes to, so each word has one
meaning and no bit of it is dropped, the ignored Y of 8XY6 and 8XYE included (decisions D1 and D4). -/
def Obligations.EncodeOfDecodeGivesTheWord : Prop :=
  ∀ (w : Word) (i : Instr), decode w = .ok i → encode i = w

/-- The decoder refuses exactly the Invalid words that section 4 of 30_encoding.md lists, each class under its own name
(decision D21 for 0NNN and the strict low nibble). -/
def Obligations.InvalidWordsAreExactlyTheListed : Prop :=
  ∀ w : Word, ((∃ e, decode w = .error e) ↔ wellFormedWord w = false) ∧
    (decode w = .error .noMachineCall ↔ isNoMachineCall w = true) ∧
    (decode w = .error .skipLowNibble ↔ isSkipLowNibble w = true) ∧
    (decode w = .error .arithmeticSubOp ↔ isArithmeticSubOp w = true) ∧
    (decode w = .error .keypadSubOp ↔ isKeypadSubOp w = true) ∧
    (decode w = .error .miscSubOp ↔ isMiscSubOp w = true)

/-- One length and big-endian bytes: an instruction is two bytes, the first the word's bits 15:8, and the decoder reads it
from them whatever bytes follow (R53, R70; the word itself by decision D1). -/
def Obligations.InstructionBytesReadBack : Prop :=
  ∀ (i : Instr) (rest : List Byte), (encodeBytes i).length = 2 ∧
    (∀ hi lo : Byte, encodeBytes i = [hi, lo] → (encode i).toNat = 256 * hi.toNat + lo.toNat) ∧
    decodeBytes (encodeBytes i ++ rest) = .ok (i, rest)

-- ==== The step (40_step.md) ====

/-- A STEP RUNS THE DECODED INSTRUCTION: not suspended, with PC = a ≤ 0xFFE and the big-endian word mem[a] || mem[a+1]
decoding to i, the step is exec of i on the state whose PC is a + 2 (R91, R93). -/
def Obligations.StepRunsTheDecodedInstruction : Prop :=
  ∀ (s : State) (i : Instr), s.kw = .run → s.pc.toNat ≤ 0xFFE →
    decode (s.mem.get s.pc.toNat ++ s.mem.get (s.pc.toNat + 1)) = .ok i →
    step s = exec i { s with pc := s.pc + 2 }

/-- A fetch beyond 0xFFE raises OutOfBoundsAccess, carrying 0x1000 when PC = 0xFFF and PC otherwise, and nothing is written
(decision D12: "OutOfBoundsAccess at fetch, no wrap to 0"). -/
def Obligations.FetchBeyondMemoryRaises : Prop :=
  ∀ s : State, s.kw = .run → 0xFFE < s.pc.toNat →
    step s = .fault (.outOfBoundsAccess (if s.pc = 0xFFF#16 then 0x1000 else s.pc.toNat)) ∧
    s.stepCall = (s, .error (.outOfBoundsAccess (if s.pc = 0xFFF#16 then 0x1000 else s.pc.toNat)))

/-- An Invalid word w at a: under Halt the step raises InvalidOpcode(w, a), nothing is written, and the next step raises the
same; under Skip PC becomes a + 2 and nothing else changes. Under both the error is returned to the caller (decision D9;
log 4 on how the model takes the policy). -/
def Obligations.InvalidWordFollowsThePolicy : Prop :=
  ∀ (s : State) (w : Word), s.meetsInvalid w →
    match s.policy with
    | .halt => step s = .fault (.invalidOpcode w s.pc) ∧ s.stepCall = (s, .error (.invalidOpcode w s.pc)) ∧
        s.stepCall.1.stepCall = (s, .error (.invalidOpcode w s.pc))
    | .skip => step s = .next { s with pc := s.pc + 2 } ∧
        s.stepCall = ({ s with pc := s.pc + 2 }, .error (.invalidOpcode w s.pc))

/-- A suspended step returns Ok and changes nothing, and the timers count on while steps do nothing (R95). -/
def Obligations.SuspendedStepChangesNothing : Prop :=
  ∀ (s : State) (x : Nibble), s.kw = .wait x →
    step s = .next s ∧ s.stepCall = (s, .ok) ∧
    s.tickTimers.kw = .wait x ∧ s.tickTimers.pc = s.pc ∧ s.tickTimers.dt.toNat = s.dt.toNat - 1 ∧
    s.tickTimers.st.toNat = s.st.toNat - 1 ∧ step s.tickTimers = .next s.tickTimers

/-- The resuming step stores the recorded key in VX, passes the FX0A and runs nothing: it writes VX, PC and KW alone and
raises no error (decision D18). -/
def Obligations.ResumingStepStoresTheKey : Prop :=
  ∀ (s : State) (x k : Nibble), s.kw = .ready x k →
    ∃ t, step s = .next t ∧ s.stepCall = (t, .ok) ∧ (t.getV x).toNat = k.toNat ∧ t.pc = s.pc + 2 ∧ t.kw = .run ∧
      KeepsAllBut (oneOf [.reg x, .pc, .kw]) s t

/-- A step that returns an error leaves the whole state as it was, but for the Skip policy's PC (decision D10). -/
def Obligations.FailedStepLeavesTheStateUnchanged : Prop :=
  ∀ (s t : State) (e : Fault), s.stepCall = (t, .error e) →
    t = s ∨ (s.policy = .skip ∧ ∃ w, e = .invalidOpcode w s.pc ∧ t = { s with pc := s.pc + 2 })

/-- ONLY THESE EVENTS STOP A STEP, each with its error: fetch beyond memory, an Invalid word under Halt, CALL on a full
stack, RET on an empty one, and FX33, FX55 or FX65 beyond 0xFFF; a suspended or resuming step never fails (decisions D9,
D11, D12, D26, D34). -/
def Obligations.StepFaultsExactlyWhereTheSpecSays : Prop :=
  ∀ (s : State) (e : Fault), step s = .fault e ↔ s.kw = .run ∧
    ((0xFFE < s.pc.toNat ∧ e = .outOfBoundsAccess (max s.pc.toNat 0x1000)) ∨
     (∃ w, s.meetsInvalid w ∧ s.policy = .halt ∧ e = .invalidOpcode w s.pc) ∨
     (∃ nnn, s.executes (.call nnn) ∧ 16 ≤ s.depth ∧ e = .stackOverflow s.pc) ∨
     (s.executes .ret ∧ s.depth = 0 ∧ e = .stackUnderflow s.pc) ∨
     (∃ x, s.executes (.ldB x) ∧ 0xFFF < s.i.toNat + 2 ∧ e = .outOfBoundsAccess (max s.i.toNat 0x1000)) ∨
     (∃ x, (s.executes (.stRegs x) ∨ s.executes (.ldRegs x)) ∧ 0xFFF < s.i.toNat + x.toNat ∧
       e = .outOfBoundsAccess (max s.i.toNat 0x1000)))

/-- Every step has a meaning: no instruction is refused, privileged or missing (decision D28: one mode, every instruction
available to every program). -/
def Obligations.NoStepIsRefused : Prop :=
  ∀ (s : State) (r : Refusal), step s ≠ .refused r ∧ s.stepCall.2 ≠ .refused r

/-- Where each instruction leaves PC, with a the address it was fetched from, as R25 lists it (FX0A by decision D18, BNNN
unmasked by decision D14). -/
def Obligations.PcAfterEachInstruction : Prop :=
  ∀ (s t : State) (i : Instr), s.executes i → step s = .next t →
    match i with
    | .jp nnn | .call nnn => t.pc.toNat = nnn.toNat
    | .jpV0 nnn => t.pc.toNat = nnn.toNat + (s.getV 0).toNat
    | .ret => s.stack.head? = some t.pc
    | .ldKey _ => t.pc = s.pc
    | .seImm x nn => t.pc = if s.getV x = nn then s.pc + 4 else s.pc + 2
    | .sneImm x nn => t.pc = if s.getV x = nn then s.pc + 2 else s.pc + 4
    | .seReg x y => t.pc = if s.getV x = s.getV y then s.pc + 4 else s.pc + 2
    | .sneReg x y => t.pc = if s.getV x = s.getV y then s.pc + 2 else s.pc + 4
    | .skp x => t.pc = if s.getKey ((s.getV x).setWidth 4) then s.pc + 4 else s.pc + 2
    | .sknp x => t.pc = if s.getKey ((s.getV x).setWidth 4) then s.pc + 2 else s.pc + 4
    | _ => t.pc = s.pc + 2

/-- After an error a further step raises the same error again: at once, or after one tick_timers, set_key, query or step in
between, since none of the conditions depends on the timers, the keys or what a query returns (decision D31, with D9 on the Halt
policy and D10 on the state a failed step leaves). Not after reset, by which the host
recovers (R189), nor after load_rom, which may change the word at PC: these two are left out of the operations in between. An Invalid word under Skip is excepted, since there the machine goes on. -/
def Obligations.FatalErrorsRepeat : Prop :=
  ∀ (s t : State) (e : Fault) (op : HostOp), s.stepCall = (t, .error e) →
    (s.policy = .halt ∨ ∀ w a, e ≠ .invalidOpcode w a) → op ≠ .reset → (∀ rom, op ≠ .loadRom rom) →
    (perform op t).1.stepCall = ((perform op t).1, .error e)

/-- The end of a run is final: in a state whose step raises an error, in a self-loop, and suspended without input, a step
leaves the state as it is (decision D39). -/
def Obligations.EndOfRunIsFinal : Prop :=
  ∀ s : State, s.endOfRun → s.stepCall.1 = s

-- ==== Control flow (41_control_flow.md) ====

/-- JP NNN: PC becomes NNN and nothing else changes; to its own address it loops forever (R101). NNN is not checked, so an odd
one is accepted (decision D13, and the template of 41_control_flow.md with D14); to 0xFFF the next fetch raises
OutOfBoundsAccess(0x1000) (decision D12, payload by D34; log 8). -/
def Obligations.JumpGoesToItsAddress : Prop :=
  (∀ (nnn : Addr) (s : State), ∃ t, exec (.jp nnn) s = .next t ∧ t.pc.toNat = nnn.toNat ∧
    KeepsAllBut (oneOf [.pc]) s t ∧
    (nnn = 0xFFF → s.kw = .run → step t = .fault (.outOfBoundsAccess 0x1000))) ∧
  (∀ s : State, s.selfLoop → step s = .next s)

/-- CALL NNN: with fewer than 16 return addresses on the stack, a + 2 is pushed and PC becomes NNN; with 16 the step raises
StackOverflow(a) and writes nothing (R102; what the error carries is decision D34, that nothing is written D10, log 8). -/
def Obligations.CallPushesTheReturnAddress : Prop :=
  (∀ (nnn : Addr) (s : State) (a : Word), s.pc = a + 2 → s.depth < 16 →
    ∃ t, exec (.call nnn) s = .next t ∧ t.stack = (a + 2) :: s.stack ∧ t.depth = s.depth + 1 ∧
      t.pc.toNat = nnn.toNat ∧ KeepsAllBut (oneOf [.pc, .stack]) s t) ∧
  (∀ (nnn : Addr) (s : State), s.executes (.call nnn) → s.depth = 16 →
    step s = .fault (.stackOverflow s.pc) ∧ s.stepCall = (s, .error (.stackOverflow s.pc)))

/-- RET: the most recently pushed address is popped into PC as it is, and under the invariant it is at most 0x1000; with an
empty stack the step raises StackUnderflow(a) and writes nothing (R100; what the error carries is decision D34, that nothing is
written D10, log 8). -/
def Obligations.ReturnPopsTheStack : Prop :=
  (∀ (s : State) (r : Word) (rest : List Word), s.stack = r :: rest →
    ∃ t, exec .ret s = .next t ∧ t.pc = r ∧ t.stack = rest ∧ KeepsAllBut (oneOf [.pc, .stack]) s t ∧
      (s.Inv → t.pc.toNat ≤ 0x1000)) ∧
  (∀ s : State, s.executes .ret → s.depth = 0 →
    step s = .fault (.stackUnderflow s.pc) ∧ s.stepCall = (s, .error (.stackUnderflow s.pc)))

/-- JP V0, NNN: PC becomes the exact sum NNN + V0, which no mask cuts, and nothing else changes (decision D14: "not masked"); a
target above 0xFFE raises OutOfBoundsAccess at the next fetch (decision D12, payload by D34). -/
def Obligations.JumpWithOffsetAddsV0 : Prop :=
  ∀ (nnn : Addr) (s : State), ∃ t, exec (.jpV0 nnn) s = .next t ∧ t.pc.toNat = nnn.toNat + (s.getV 0).toNat ∧
    KeepsAllBut (oneOf [.pc]) s t ∧
    (s.kw = .run → 0xFFE < nnn.toNat + (s.getV 0).toNat →
      step t = .fault (.outOfBoundsAccess (max (nnn.toNat + (s.getV 0).toNat) 0x1000)))

/-- CALL followed at once by RET returns PC to its pre-call value plus 2 and leaves everything else, the stack included, as
it was (R100, R102; the word 00EE at the target, decision D1). -/
def Obligations.CallThenReturnComesBack : Prop :=
  ∀ (s : State) (nnn : Addr), s.executes (.call nnn) → s.depth < 16 → nnn.toNat ≤ 0xFFE →
    decode (s.mem.getWord nnn.toNat) = .ok .ret →
    ∃ t, step s = .next t ∧ step t = .next { s with pc := s.pc + 2 }

-- ==== Conditional skips (42_skip.md) ====

/-- SE VX, NN and SNE VX, NN: two more on PC if VX = NN, and if VX differs from NN; nothing else changes (R110, R111). -/
def Obligations.SkipsOnAConstant : Prop :=
  ∀ (x : Nibble) (nn : Byte) (s : State),
    (∃ t, exec (.seImm x nn) s = .next t ∧ t.pc = (if s.getV x = nn then s.pc + 2 else s.pc) ∧
      KeepsAllBut (oneOf [.pc]) s t) ∧
    (∃ t, exec (.sneImm x nn) s = .next t ∧ t.pc = (if s.getV x = nn then s.pc else s.pc + 2) ∧
      KeepsAllBut (oneOf [.pc]) s t)

/-- SE VX, VY and SNE VX, VY: two more on PC if the registers agree, and if they differ; X = Y always and never skips;
nothing else changes (the strict encoding is decision D21). -/
def Obligations.SkipsOnTwoRegisters : Prop :=
  ∀ (x y : Nibble) (s : State),
    (∃ t, exec (.seReg x y) s = .next t ∧ t.pc = (if s.getV x = s.getV y then s.pc + 2 else s.pc) ∧
      (x = y → t.pc = s.pc + 2) ∧ KeepsAllBut (oneOf [.pc]) s t) ∧
    (∃ t, exec (.sneReg x y) s = .next t ∧ t.pc = (if s.getV x = s.getV y then s.pc else s.pc + 2) ∧
      (x = y → t.pc = s.pc) ∧ KeepsAllBut (oneOf [.pc]) s t)

/-- A skip does not look at the word it skips: with any other memory that agrees at a and a + 1, the six skips do the same
and raise nothing (decision D33: "the skipped word is not fetched or decoded"). -/
def Obligations.SkipsIgnoreTheSkippedWord : Prop :=
  ∀ (s : State) (i : Instr) (m : Memory), s.executes i →
    m.get s.pc.toNat = s.mem.get s.pc.toNat → m.get (s.pc.toNat + 1) = s.mem.get (s.pc.toNat + 1) →
    match i with
    | .seImm _ _ | .sneImm _ _ | .seReg _ _ | .sneReg _ _ | .skp _ | .sknp _ =>
      ∃ t, step s = .next t ∧ step { s with mem := m } = .next { t with mem := m } ∧
        (t.pc = s.pc + 4 ∨ t.pc = s.pc + 2)
    | _ => True

-- ==== Arithmetic (43_arithmetic.md) ====

/-- LD VX, NN and LD VX, VY: the constant, and the other register's value, in VX; nothing else changes (R120, R122). -/
def Obligations.LoadsOfARegister : Prop :=
  ∀ (x y : Nibble) (nn : Byte) (s : State),
    (∃ t, exec (.ldImm x nn) s = .next t ∧ t.getV x = nn ∧ KeepsAllBut (oneOf [.reg x]) s t) ∧
    (∃ t, exec (.ldReg x y) s = .next t ∧ t.getV x = s.getV y ∧ KeepsAllBut (oneOf [.reg x]) s t)

/-- ADD VX, NN: the sum modulo 256 in VX and no flag: for X other than F, VF keeps its value even when the sum exceeds 255
(R121). -/
def Obligations.AddConstantSetsNoFlag : Prop :=
  ∀ (x : Nibble) (nn : Byte) (s : State), ∃ t, exec (.addImm x nn) s = .next t ∧
    (t.getV x).toNat = ((s.getV x).toNat + nn.toNat) % 256 ∧ (x ≠ 0xF → t.getV 0xF = s.getV 0xF) ∧
    KeepsAllBut (oneOf [.reg x]) s t

/-- OR, AND and XOR of VX and VY, bit by bit, in VX; VF is not reset (decision D20). -/
def Obligations.BitwiseOperations : Prop :=
  ∀ (x y : Nibble) (s : State),
    (∃ t, exec (.orReg x y) s = .next t ∧
      (∀ j, (t.getV x).getLsbD j = ((s.getV x).getLsbD j || (s.getV y).getLsbD j)) ∧
      KeepsAllBut (oneOf [.reg x]) s t) ∧
    (∃ t, exec (.andReg x y) s = .next t ∧
      (∀ j, (t.getV x).getLsbD j = ((s.getV x).getLsbD j && (s.getV y).getLsbD j)) ∧
      KeepsAllBut (oneOf [.reg x]) s t) ∧
    (∃ t, exec (.xorReg x y) s = .next t ∧
      (∀ j, (t.getV x).getLsbD j = ((s.getV x).getLsbD j ^^ (s.getV y).getLsbD j)) ∧ (x = y → t.getV x = 0) ∧
      KeepsAllBut (oneOf [.reg x]) s t)

/-- ADD VX, VY: the sum modulo 256 in VX unless X = F, and in VF 1 if the exact sum exceeds 255, else 0; for X = F the flag is
what VF holds (decision D5: "the flag is written last"). -/
def Obligations.AddRegistersSetsCarry : Prop :=
  ∀ (x y : Nibble) (s : State), ∃ t, exec (.addReg x y) s = .next t ∧
    (x ≠ 0xF → (t.getV x).toNat = ((s.getV x).toNat + (s.getV y).toNat) % 256) ∧
    (t.getV 0xF).toNat = (if 255 < (s.getV x).toNat + (s.getV y).toNat then 1 else 0) ∧
    KeepsAllBut (oneOf [.reg x, .reg 0xF]) s t

/-- SUB and SUBN: VX - VY, and VY - VX, modulo 256 in VX unless X = F, and in VF 1 if there is no borrow (minuend ≥
subtrahend), else 0; for X = F the flag is what VF holds (decision D5). -/
def Obligations.SubtractionsSetNoBorrow : Prop :=
  ∀ (x y : Nibble) (s : State),
    (∃ t, exec (.subReg x y) s = .next t ∧
      (x ≠ 0xF → (t.getV x).toNat = ((s.getV x).toNat + 256 - (s.getV y).toNat) % 256) ∧
      (t.getV 0xF).toNat = (if (s.getV y).toNat ≤ (s.getV x).toNat then 1 else 0) ∧
      KeepsAllBut (oneOf [.reg x, .reg 0xF]) s t) ∧
    (∃ t, exec (.subn x y) s = .next t ∧
      (x ≠ 0xF → (t.getV x).toNat = ((s.getV y).toNat + 256 - (s.getV x).toNat) % 256) ∧
      (t.getV 0xF).toNat = (if (s.getV x).toNat ≤ (s.getV y).toNat then 1 else 0) ∧
      KeepsAllBut (oneOf [.reg x, .reg 0xF]) s t)

/-- SHR and SHL: VX halved, and doubled modulo 256, in VX unless X = F, and in VF the bit shifted out; VY is not read: with any
other Y the effect is the same (decision D4: "shift VX in place by 1, ignore VY"; decision D5 for X = F). -/
def Obligations.ShiftsSetTheBitShiftedOut : Prop :=
  ∀ (x y : Nibble) (s : State),
    (∃ t, exec (.shr x y) s = .next t ∧ (x ≠ 0xF → (t.getV x).toNat = (s.getV x).toNat / 2) ∧
      (t.getV 0xF).toNat = (s.getV x).toNat % 2 ∧ KeepsAllBut (oneOf [.reg x, .reg 0xF]) s t ∧
      ∀ y', exec (.shr x y') s = .next t) ∧
    (∃ t, exec (.shl x y) s = .next t ∧ (x ≠ 0xF → (t.getV x).toNat = 2 * (s.getV x).toNat % 256) ∧
      (t.getV 0xF).toNat = (s.getV x).toNat / 128 ∧ KeepsAllBut (oneOf [.reg x, .reg 0xF]) s t ∧
      ∀ y', exec (.shl x y') s = .next t)

/-- RND VX, NN: the draw AND NN in VX, one draw consumed; NN = 0 gives 0 whatever the draw, NN = 0xFF the draw itself
(decision D24: "one u8 draw per executed CXNN, no law"). The draw is a free value (log 5): the statement holds for every
generator. -/
def Obligations.RandomIsTheDrawMasked : Prop :=
  ∀ (x : Nibble) (nn : Byte) (s : State), ∃ t, exec (.rnd x nn) s = .next t ∧
    (∀ j, (t.getV x).getLsbD j = ((Config.drawByte s.draws).getLsbD j && nn.getLsbD j)) ∧
    (nn = 0 → t.getV x = 0) ∧ (nn = 0xFF → t.getV x = Config.drawByte s.draws) ∧
    t.draws = s.draws + 1 ∧ KeepsAllBut (oneOf [.reg x, .draws]) s t

/-- VF as the flag register: exactly 8XY4, 8XY5, 8XY6, 8XY7, 8XYE and DXYN write VF as a side effect, with 0 or 1 on every
execution; every other instruction leaves VF alone unless VF is its destination (10_state.md section 2, with decisions D15 and
D20). -/
def Obligations.OnlyFlagInstructionsWriteVF : Prop :=
  ∀ (i : Instr) (s t : State), exec i s = .next t →
    match i with
    | .addReg _ _ | .subReg _ _ | .shr _ _ | .subn _ _ | .shl _ _ | .drw _ _ _ => t.getV 0xF = 0 ∨ t.getV 0xF = 1
    | .ldImm x _ | .addImm x _ | .ldReg x _ | .orReg x _ | .andReg x _ | .xorReg x _ | .rnd x _ | .getDt x
    | .ldRegs x => x ≠ 0xF → t.getV 0xF = s.getV 0xF
    | _ => t.getV 0xF = s.getV 0xF

-- ==== Index and memory (44_index_memory.md) ====

/-- The three writers of I: NNN zero-extended (decision D35); I + VX modulo 65536 with VF untouched (decision D15); the
address 5 * (VX & 0xF) of a glyph (decisions D3 and D16). Nothing else changes. -/
def Obligations.IndexRegisterWrites : Prop :=
  ∀ (nnn : Addr) (x : Nibble) (s : State),
    (∃ t, exec (.ldI nnn) s = .next t ∧ t.i.toNat = nnn.toNat ∧ KeepsAllBut (oneOf [.index]) s t) ∧
    (∃ t, exec (.addI x) s = .next t ∧ t.i.toNat = (s.i.toNat + (s.getV x).toNat) % 65536 ∧
      KeepsAllBut (oneOf [.index]) s t) ∧
    (∃ t, exec (.ldF x) s = .next t ∧ t.i.toNat = 5 * ((s.getV x).toNat % 16) ∧ KeepsAllBut (oneOf [.index]) s t)

/-- LD B, VX: hundreds, tens and ones of VX at I, I + 1, I + 2 if I + 2 ≤ 0xFFF, every other byte and all else unchanged; else
OutOfBoundsAccess with the first address above 0xFFF (decision D11). -/
def Obligations.BcdStoresThreeDigits : Prop :=
  ∀ (x : Nibble) (s : State),
    (s.i.toNat + 2 ≤ 0xFFF → ∃ t, exec (.ldB x) s = .next t ∧
      (t.mem.get s.i.toNat).toNat = (s.getV x).toNat / 100 ∧
      (t.mem.get (s.i.toNat + 1)).toNat = (s.getV x).toNat / 10 % 10 ∧
      (t.mem.get (s.i.toNat + 2)).toNat = (s.getV x).toNat % 10 ∧
      KeepsAllBut (fun p => ∃ k, k < 3 ∧ p = .byte (s.i.toNat + k)) s t) ∧
    (0xFFF < s.i.toNat + 2 → exec (.ldB x) s = .fault (.outOfBoundsAccess (max s.i.toNat 0x1000)))

/-- LD [I], VX: V0..VX at I..I+X if I + X ≤ 0xFFF, every other byte and all else, I included, unchanged (decision D19); else
OutOfBoundsAccess with the first address above 0xFFF (decision D11). -/
def Obligations.StoreRegistersWritesTheBlock : Prop :=
  ∀ (x : Nibble) (s : State),
    (s.i.toNat + x.toNat ≤ 0xFFF → ∃ t, exec (.stRegs x) s = .next t ∧
      (∀ y : Nibble, y ≤ x → t.mem.get (s.i.toNat + y.toNat) = s.getV y) ∧
      KeepsAllBut (fun p => ∃ k, k ≤ x.toNat ∧ p = .byte (s.i.toNat + k)) s t) ∧
    (0xFFF < s.i.toNat + x.toNat → exec (.stRegs x) s = .fault (.outOfBoundsAccess (max s.i.toNat 0x1000)))

/-- LD VX, [I]: mem[I..I+X] in V0..VX if I + X ≤ 0xFFF, every other register and all else, I included, unchanged (decision
D19); else OutOfBoundsAccess with the first address above 0xFFF (decision D11). -/
def Obligations.LoadRegistersReadsTheBlock : Prop :=
  ∀ (x : Nibble) (s : State),
    (s.i.toNat + x.toNat ≤ 0xFFF → ∃ t, exec (.ldRegs x) s = .next t ∧
      (∀ y : Nibble, y ≤ x → t.getV y = s.mem.get (s.i.toNat + y.toNat)) ∧
      KeepsAllBut (fun p => ∃ y : Nibble, y ≤ x ∧ p = .reg y) s t) ∧
    (0xFFF < s.i.toNat + x.toNat → exec (.ldRegs x) s = .fault (.outOfBoundsAccess (max s.i.toNat 0x1000)))

/-- What FX55 stores, FX65 with the same X loads back: from any state that holds the memory after the store and the same I,
V0..VX are the registers stored (decisions D11 and D19). -/
def Obligations.StoreThenLoadRestoresTheRegisters : Prop :=
  ∀ (x : Nibble) (s t u w : State), exec (.stRegs x) s = .next t → u.mem = t.mem → u.i = s.i →
    exec (.ldRegs x) u = .next w → ∀ y : Nibble, y ≤ x → w.getV y = s.getV y

/-- A store is seen by the next fetch with no action (decision D25): a step that executes FX55 over the word at a + 2 is
followed by a step that runs the stored word. -/
def Obligations.StoredWordIsFetchedNext : Prop :=
  ∀ (s : State) (x y : Nibble) (i : Instr), s.executes (.stRegs x) → s.i.toNat + x.toNat ≤ 0xFFF →
    s.pc.toNat + 2 ≤ 0xFFE → y < x → s.i.toNat + y.toNat = s.pc.toNat + 2 →
    decode (s.getV y ++ s.getV (y + 1)) = .ok i →
    ∃ t, step s = .next t ∧ t.executes i

/-- read_byte and write_byte work on the whole 4096-byte space; a written byte is read back, and no other byte changes
(20_memory.md sections 1 and 5). Outside it both fail: the spec says an out-of-range error there, and that this is OutOfBoundsAccess
carrying the address is decisions D11 and D34 (log 8). -/
def Obligations.ByteOperationsCheckTheRange : Prop :=
  ∀ (m : Memory) (a : Nat) (b : Byte),
    (a < 4096 → m.readByte a = .ok (m.get a) ∧ ∃ n, m.writeByte a b = .ok n ∧ n.readByte a = .ok b ∧
      ∀ k, k ≠ a → n.readByte k = m.readByte k) ∧
    (4096 ≤ a → m.readByte a = .error (.outOfBoundsAccess a) ∧ m.writeByte a b = .error (.outOfBoundsAccess a))

/-- Equal reads are equal memories: two memories in canonical form that read alike at every address are the same list, so
equality of states compares what memory holds (log 3; derived from R62, every read is the last write). -/
def Obligations.CanonicalMemoriesAreDeterminedByReads : Prop :=
  ∀ m n : Memory, m.wf → n.wf → (∀ a, a < 4096 → m.get a = n.get a) → m = n

-- ==== Display (45_display.md) ====

/-- CLS, whose word is 00E0: all 2048 pixels off whatever they were; VF, memory, I and all else unchanged (R151). -/
def Obligations.ClearScreenTurnsEveryPixelOff : Prop :=
  decode 0x00E0 = .ok .cls ∧ ∀ s : State, ∃ t, exec .cls s = .next t ∧ (∀ y x, t.disp.pixel y x = false) ∧
    KeepsAllBut (fun p => ∃ y x, p = .pixel y x) s t

/-- DRW VX, VY, N: the pixel at row y, column x is inverted if a 1 bit of the N bytes at (I + r) mod 4096, drawn from column VX
mod 64 and row VY mod 32 around both edges, lands on it, and is unchanged otherwise; VF is 1 if some pixel that was on is off
after, else 0; nothing else changes (decisions D5, D6, D7, D8). -/
def Obligations.DrawXorsTheSprite : Prop :=
  ∀ (x y n : Nibble) (s : State), ∃ t, exec (.drw x y n) s = .next t ∧
    (∀ py px, py < 32 → px < 64 → t.disp.pixel py px = (s.disp.pixel py px ^^
      (decide ((py + 32 - (s.getV y).toNat % 32) % 32 < n.toNat) && decide ((px + 64 - (s.getV x).toNat % 64) % 64 < 8) &&
        (s.mem.get ((s.i.toNat + (py + 32 - (s.getV y).toNat % 32) % 32) % 4096)).getLsbD
          (7 - (px + 64 - (s.getV x).toNat % 64) % 64)))) ∧
    ((∃ py px, py < 32 ∧ px < 64 ∧ s.disp.pixel py px = true ∧ t.disp.pixel py px = false) → t.getV 0xF = 1) ∧
    ((¬ ∃ py px, py < 32 ∧ px < 64 ∧ s.disp.pixel py px = true ∧ t.disp.pixel py px = false) → t.getV 0xF = 0) ∧
    KeepsAllBut (fun p => p = .reg 0xF ∨ ∃ py px, p = .pixel py px) s t

/-- Drawing the same sprite twice at the same place restores the display; if the sprite has a 1 bit and the first draw hit
nothing, the second gives VF = 1 (X and Y other than F, so that the flag does not move the sprite; decisions D5 to D8; log 6 on
the spec's shorter wording). -/
def Obligations.DrawingTwiceRestoresTheDisplay : Prop :=
  ∀ (x y n : Nibble) (s t u : State), x ≠ 0xF → y ≠ 0xF → exec (.drw x y n) s = .next t →
    exec (.drw x y n) t = .next u → u.disp = s.disp ∧
    (t.getV 0xF = 0 → (∃ r j, r < n.toNat ∧ (s.mem.get ((s.i.toNat + r) % 4096)).getLsbD j = true) →
      u.getV 0xF = 1)

-- ==== Keypad (46_keypad.md, 60_exceptions.md section 5) ====

/-- SKP VX and SKNP VX: two more on PC if the key that VX's low nibble names is pressed, and if it is not; nothing else changes
(decision D17: "the low nibble names the key"). -/
def Obligations.KeySkips : Prop :=
  ∀ (x k : Nibble) (s : State), (s.getV x).toNat % 16 = k.toNat →
    (∃ t, exec (.skp x) s = .next t ∧ t.pc = (if s.getKey k then s.pc + 2 else s.pc) ∧
      KeepsAllBut (oneOf [.pc]) s t) ∧
    (∃ t, exec (.sknp x) s = .next t ∧ t.pc = (if s.getKey k then s.pc else s.pc + 2) ∧
      KeepsAllBut (oneOf [.pc]) s t)

/-- LD VX, K: the suspension begins, KW = Wait(X), and PC goes back to a; no register is written and no key, held or not, is
looked at (decisions D18 and D37). -/
def Obligations.WaitForKeySuspends : Prop :=
  ∀ (x : Nibble) (s : State) (a : Word), s.pc = a + 2 → ∃ t, exec (.ldKey x) s = .next t ∧ t.kw = .wait x ∧ t.pc = a ∧
    KeepsAllBut (oneOf [.kw, .pc]) s t

/-- set_key(k, p): key k takes p; a false-to-true transition during Wait(x) gives Ready(x, k); a held key, a release, and any
press outside a wait leave KW; nothing else changes (decisions D18, D37 and D38). -/
def Obligations.SetKeyRecordsThePress : Prop :=
  ∀ (s : State) (k : Nibble) (p : Bool),
    (s.setKey k p).getKey k = p ∧
    (∀ x, s.kw = .wait x → p = true → s.getKey k = false → (s.setKey k p).kw = .ready x k) ∧
    ((∀ x, s.kw ≠ .wait x) ∨ p = false ∨ s.getKey k = true → (s.setKey k p).kw = s.kw) ∧
    KeepsAllBut (oneOf [.key k, .kw]) s (s.setKey k p)

/-- A key-wait from beginning to end: after FX0A any number of steps leaves PC and everything else but KW; then set_key(k, true)
on a released key and one step store k in VX and put PC past the FX0A (decision D18). -/
def Obligations.KeyWaitCompletes : Prop :=
  ∀ (s : State) (x k : Nibble) (n : Nat), s.executes (.ldKey x) → s.getKey k = false →
    (session (List.replicate (n + 1) .step) s).kw = .wait x ∧
    KeepsAllBut (oneOf [.kw]) s (session (List.replicate (n + 1) .step) s) ∧
    ((session (List.replicate (n + 1) .step ++ [.setKey k true, .step]) s).getV x).toNat = k.toNat ∧
    (session (List.replicate (n + 1) .step ++ [.setKey k true, .step]) s).pc = s.pc + 2 ∧
    (session (List.replicate (n + 1) .step ++ [.setKey k true, .step]) s).getKey k = true ∧
    KeepsAllBut (oneOf [.reg x, .pc, .key k]) s (session (List.replicate (n + 1) .step ++ [.setKey k true, .step]) s)

-- ==== Timers (47_timers.md, 60_exceptions.md section 4) ====

/-- LD VX, DT reads DT; LD DT, VX and LD ST, VX set the timers, and ST is what sound_active() tells; each writes its target and
nothing else (R170, R171, R172). -/
def Obligations.TimerInstructions : Prop :=
  ∀ (x : Nibble) (s : State),
    (∃ t, exec (.getDt x) s = .next t ∧ t.getV x = s.dt ∧ KeepsAllBut (oneOf [.reg x]) s t) ∧
    (∃ t, exec (.setDt x) s = .next t ∧ t.dt = s.getV x ∧ KeepsAllBut (oneOf [.dt]) s t) ∧
    (∃ t, exec (.setSt x) s = .next t ∧ t.st = s.getV x ∧ (t.soundActive = true ↔ 0 < (s.getV x).toNat) ∧
      KeepsAllBut (oneOf [.st]) s t)

/-- tick_timers(): each timer that is above 0 goes down by one, one at 0 stays (never underflows), and nothing else is written;
sound_active() is ST > 0 (R191, R193). -/
def Obligations.TickCountsDown : Prop :=
  ∀ s : State, s.tickTimers.dt.toNat = s.dt.toNat - 1 ∧ s.tickTimers.st.toNat = s.st.toNat - 1 ∧
    (s.soundActive = true ↔ 0 < s.st.toNat) ∧ KeepsAllBut (oneOf [.dt, .st]) s s.tickTimers ∧
    perform .soundActive s = (s, .bool s.soundActive)

/-- Ticks and steps are independent: unless the step executes FX07, FX15 or FX18, a tick before it and a tick after it leave the
same state, and an error is the same error (R191: "the core places no internal ordering constraint between them"). -/
def Obligations.TickCommutesWithStep : Prop :=
  ∀ s : State, (∀ x, ¬ s.executes (.getDt x) ∧ ¬ s.executes (.setDt x) ∧ ¬ s.executes (.setSt x)) →
    (∀ t, step s = .next t → step s.tickTimers = .next t.tickTimers) ∧
    (∀ e, step s = .fault e → step s.tickTimers = .fault e)

/-- ST is written by FX18, with VX, and by ticks, and by no other instruction; NO INSTRUCTION READS IT: two states that differ
in ST alone step to states that differ in ST alone, or fail alike, so a program learns nothing of it; the host reads ST > 0
through sound_active() (R29). -/
def Obligations.SoundTimerIsNeverRead : Prop :=
  (∀ (i : Instr) (s t : State), exec i s = .next t → t.st = match i with | .setSt x => s.getV x | _ => s.st) ∧
  (∀ s : State, s.tickTimers.st.toNat = s.st.toNat - 1 ∧ (s.soundActive = true ↔ 0 < s.st.toNat)) ∧
  (∀ (s : State) (b : Byte),
    (∀ t, step s = .next t → ∃ c, step { s with st := b } = .next { t with st := c }) ∧
    (∀ e, step s = .fault e → step { s with st := b } = .fault e))

/-- The key states are the host's (10_state.md section 5): no step writes one, set_key writes the one it names, the other
operations but reset write none. Construction and reset release all (decision D22, log 2). EX9E and EXA1 read them: with every key
pressed EX9E skips and EXA1 does not, with every key released the other way about. set_key reads them: a press during a wait counts
only from released, and gives Ready (decisions D18 and D37, log 8). A step that executes neither EX9E nor EXA1 does the same whatever
the keys are. -/
def Obligations.KeyStatesAreTheHosts : Prop :=
  (∀ s t : State, step s = .next t → ∀ k, t.getKey k = s.getKey k) ∧
  (∀ (s : State) (op : HostOp) (k : Nibble), op ≠ .reset → (∀ p, op ≠ .setKey k p) →
    (perform op s).1.getKey k = s.getKey k) ∧
  (∀ (s : State) (k : Nibble) (p : Bool), (perform (.setKey k p) s).1.getKey k = p) ∧
  (∀ (s : State) (k : Nibble), (perform .reset s).1.getKey k = false ∧ ∀ p, (State.new p).getKey k = false) ∧
  (∀ (x : Nibble) (s : State) (p : Bool), (∀ k, s.getKey k = p) →
    exec (.skp x) s = .next { s with pc := if p then s.pc + 2 else s.pc } ∧
    exec (.sknp x) s = .next { s with pc := if p then s.pc else s.pc + 2 }) ∧
  (∀ (s : State) (x k : Nibble), s.kw = .wait x →
    (perform (.setKey k true) s).1.kw = if s.getKey k then .wait x else .ready x k) ∧
  (∀ (s : State) (ks : Vector Bool 16), (∀ x, ¬ s.executes (.skp x) ∧ ¬ s.executes (.sknp x)) →
    (∀ t, step s = .next t → step { s with keys := ks } = .next { t with keys := ks }) ∧
    (∀ e, step s = .fault e → step { s with keys := ks } = .fault e))

-- ==== Host interface, construction and reset (60_exceptions.md section 5, 70_reset_and_hazards.md) ====

/-- load_rom: a ROM of at most 3584 bytes is read back byte for byte from 0x200, and nothing else is written, bytes below 0x200
and above the ROM included; a longer one returns RomTooLarge and writes nothing (decision D23 on the side effects). -/
def Obligations.LoadRomCopiesTheBytes : Prop :=
  ∀ (s : State) (rom : List Byte),
    (rom.length ≤ 3584 → ∃ t, perform (.loadRom rom) s = (t, .ok) ∧
      (∀ k (h : k < rom.length), t.mem.get (0x200 + k) = rom[k]) ∧
      KeepsAllBut (fun p => ∃ k, k < rom.length ∧ p = .byte (0x200 + k)) s t) ∧
    (3584 < rom.length → perform (.loadRom rom) s = (s, .error .romTooLarge))

/-- What construction leaves: PC = 0x200, display cleared, font loaded, and, by decision D22, every register and timer 0, keys
released, stack empty, KW = Run, memory above the font 0 (log 2); the glyph bytes are decision D3. The policy is the one the
caller selects (log 4). -/
def Obligations.ConstructionValues : Prop :=
  ∀ p : Config.InvalidOpcodePolicy, (State.new p).pc = 0x200 ∧ (∀ y x, (State.new p).disp.pixel y x = false) ∧
    (∀ x, (State.new p).getV x = 0) ∧ (State.new p).i = 0 ∧ (State.new p).stack = [] ∧ (State.new p).dt = 0 ∧
    (State.new p).st = 0 ∧ (∀ k, (State.new p).getKey k = false) ∧ (State.new p).kw = .run ∧
    (∀ a, 80 ≤ a → (State.new p).mem.get a = 0) ∧ (State.new p).policy = p ∧
    State.new .halt = State.reset ∧
    (List.range 80).map (State.new p).mem.get = (
      [0xF0, 0x90, 0x90, 0x90, 0xF0, 0x20, 0x60, 0x20, 0x20, 0x70] ++
      [0xF0, 0x10, 0xF0, 0x80, 0xF0, 0xF0, 0x10, 0xF0, 0x10, 0xF0] ++
      [0x90, 0x90, 0xF0, 0x10, 0x10, 0xF0, 0x80, 0xF0, 0x10, 0xF0] ++
      [0xF0, 0x80, 0xF0, 0x90, 0xF0, 0xF0, 0x10, 0x20, 0x40, 0x40] ++
      [0xF0, 0x90, 0xF0, 0x90, 0xF0, 0xF0, 0x90, 0xF0, 0x10, 0xF0] ++
      [0xF0, 0x90, 0xF0, 0x90, 0x90, 0xE0, 0x90, 0xE0, 0x90, 0xE0] ++
      [0xF0, 0x80, 0x80, 0x80, 0xF0, 0xE0, 0x90, 0x90, 0x90, 0xE0] ++
      [0xF0, 0x80, 0xF0, 0x80, 0xF0, 0xF0, 0x80, 0xF0, 0x80, 0x80] : List Byte)

/-- reset(): whatever the state was, in a key-wait or after an error or with a ROM loaded, every element is the construction
value again; only the random generator goes on and the caller's policy stays (decision D22; logs 4 and 5 for the model's two
fields). -/
def Obligations.ResetRestoresConstruction : Prop :=
  ∀ (ops : List HostOp) (s : State), (perform .reset (session ops s)).1 =
    { State.new (session ops s).policy with draws := (session ops s).draws } ∧
    (perform .reset (session ops s)).1.policy = s.policy

-- ==== The whole machine ====

/-- EVERY INSTRUCTION WRITES ONLY ITS TARGETS: whatever instruction runs and from whatever state, each register, I, PC, the
stack, each timer, each byte of memory, each pixel, each key, KW and the model's two fields hold afterwards what they held,
unless the instruction's rule in 41 to 47 names them as written (the list is `writes`). So only CLS and DRW change the display,
only CALL and RET the stack, only FX33 and FX55 memory, only FX15 and FX18 a timer, and none a key. Four of the rules rest on the
spec's own decisions (log 8): FX1E spares VF (D15), FX0A writes KW and puts PC back (D18), FX55 and FX65 spare I (D19), and OR, AND
and XOR spare VF (D20). The model's two fields are logs 4 and 5; CXNN consumes one draw (D24). -/
def Obligations.InstructionsWriteOnlyTheirTargets : Prop :=
  ∀ (i : Instr) (s t : State), exec i s = .next t → KeepsAllBut (writes i s) s t

/-- The invariant holds after reset and construction: the empty stack, KW = Run and the memory contents are decision D22 (log 2),
the canonical form of memory is log 3. -/
def Obligations.ResetMeetsTheInvariant : Prop :=
  State.reset.Inv ∧ ∀ p, (State.new p).Inv

/-- AN INVARIANT THAT EVERY STEP KEEPS, from every state that meets it: memory in canonical form (the model's choice of form,
log 3); depth at most 16; return addresses at most 0x1000 and PC at most 0x10FE (decisions D12 on the fetch and D14 on BNNN, log 8);
a suspended machine on a fetchable word (decision D18, log 8). -/
def Obligations.StepKeepsTheInvariant : Prop :=
  ∀ s t : State, s.Inv → step s = .next t → t.Inv

/-- Every operation of the host interface keeps the invariant, so every session does, in whatever order the host loads ROMs,
steps, ticks, presses keys and resets. The clauses rest on what StepKeepsTheInvariant names (log 3 on canonical memory; decisions D12,
D14 and D18, log 8), and after a reset on decision D22 (log 2). -/
def Obligations.SessionsKeepTheInvariant : Prop :=
  ∀ (ops : List HostOp) (s : State), s.Inv → (session ops s).Inv
end

