-- ==== Sys2Proof/Laws/Blit.lean ====
section
/-!
SUPPORT. What the blitter does, in closed form (45_display.md R153..R155): the display after a draw is the old one XOR
the sprite's bits, and the collision is a 1 bit of the sprite on a pixel that was on.
-/

namespace Sys2Proof.Machine

/-- A pixel after a toggle: inverted where the coordinates agree around the edges, else unchanged (R153, R154). -/
theorem Grid.pixel_toggle (g : Grid) (y x y' x' : Nat) :
    (g.toggle y x).pixel y' x' = (g.pixel y' x' ^^ (decide (y % 32 = y' % 32) && decide (x % 64 = x' % 64))) := by
  by_cases hy : y % 32 = y' % 32 <;> by_cases hx : x % 64 = x' % 64 <;>
    simp [Grid.toggle, Grid.pixel, hy, hx]

/-- Every pixel of the cleared display is off (R151). -/
@[simp] theorem Grid.pixel_clear (y x : Nat) : Grid.clear.pixel y x = false := by
  simp [Grid.clear, Grid.pixel]

/-- Two displays that show the same are equal. -/
theorem Grid.ext_pixel {g h : Grid} (e : ∀ y x, y < 32 → x < 64 → g.pixel y x = h.pixel y x) : g = h := by
  apply Vector.ext
  intro y hy
  apply Vector.ext
  intro x hx
  simpa [Grid.pixel, Nat.mod_eq_of_lt hy, Nat.mod_eq_of_lt hx] using e y x hy hx

/-- A pixel after one sprite bit (R153). -/
theorem drawBit_pixel (acc : Grid × Bool) (y x : Nat) (bit : Bool) (Y X : Nat) :
    (drawBit acc y x bit).1.pixel Y X =
      (acc.1.pixel Y X ^^ (decide (y % 32 = Y % 32) && decide (x % 64 = X % 64) && bit)) := by
  cases bit <;> simp [drawBit, Grid.pixel_toggle]

/-- The hit after one sprite bit (R155). -/
theorem drawBit_hit (acc : Grid × Bool) (y x : Nat) (bit : Bool) :
    (drawBit acc y x bit).2 = (acc.2 || (bit && acc.1.pixel y x)) := by
  cases bit <;> simp [drawBit]

/-- A pixel after the columns c..c+k-1 of one sprite byte. -/
theorem drawColumns_pixel (y x0 : Nat) (b : Byte) (Y X : Nat) : ∀ (k c : Nat) (acc : Grid × Bool), c + k ≤ 8 →
    (drawColumns y x0 b k c acc).1.pixel Y X =
      (acc.1.pixel Y X ^^ (decide (y % 32 = Y % 32) &&
        decide (c ≤ (X % 64 + 64 - x0 % 64) % 64 ∧ (X % 64 + 64 - x0 % 64) % 64 < c + k) &&
        b.getLsbD (7 - (X % 64 + 64 - x0 % 64) % 64))) := by
  intro k
  induction k with
  | zero => intro c acc _
            have : ¬ (c ≤ (X % 64 + 64 - x0 % 64) % 64 ∧ (X % 64 + 64 - x0 % 64) % 64 < c + 0) := by omega
            simp only [drawColumns, this, decide_false, Bool.and_false, Bool.false_and, Bool.xor_false]
  | succ k ih =>
    intro c acc h
    simp only [drawColumns]
    rw [ih (c + 1) _ (by omega), drawBit_pixel]
    by_cases hc : (x0 + c) % 64 = X % 64
    · have e : (X % 64 + 64 - x0 % 64) % 64 = c := by omega
      simp [hc, e]
    · have e : (X % 64 + 64 - x0 % 64) % 64 ≠ c := by omega
      have h1 : (c + 1 ≤ (X % 64 + 64 - x0 % 64) % 64 ∧ (X % 64 + 64 - x0 % 64) % 64 < c + 1 + k) ↔
          (c ≤ (X % 64 + 64 - x0 % 64) % 64 ∧ (X % 64 + 64 - x0 % 64) % 64 < c + (k + 1)) := by omega
      simp only [hc, h1, decide_false, Bool.and_false, Bool.false_and, Bool.xor_false]

/-- The hit after the columns c..c+k-1 of one sprite byte: a 1 bit met a pixel that was on before them. -/
theorem drawColumns_hit (y x0 : Nat) (b : Byte) : ∀ (k c : Nat) (acc : Grid × Bool), c + k ≤ 8 →
    ((drawColumns y x0 b k c acc).2 = true ↔
      acc.2 = true ∨ ∃ d, c ≤ d ∧ d < c + k ∧ b.getLsbD (7 - d) = true ∧ acc.1.pixel y (x0 + d) = true) := by
  intro k
  induction k with
  | zero => intro c acc _
            simp only [drawColumns]
            exact ⟨.inl, fun h => h.elim id fun ⟨d, h1, h2, _⟩ => absurd h2 (by omega)⟩
  | succ k ih =>
    intro c acc h
    simp only [drawColumns]
    rw [ih (c + 1) _ (by omega), drawBit_hit]
    have other : ∀ d, c + 1 ≤ d → d < c + 1 + k →
        (drawBit acc y (x0 + c) (b.getLsbD (7 - c))).1.pixel y (x0 + d) = acc.1.pixel y (x0 + d) := by
      intro d h1 h2
      have : ¬ (x0 + c) % 64 = (x0 + d) % 64 := by omega
      simp [drawBit_pixel, this]
    constructor
    · rintro (hh | ⟨d, h1, h2, h3, h4⟩)
      · rcases Bool.or_eq_true_iff.mp hh with hh | hh
        · exact .inl hh
        · obtain ⟨h3, h4⟩ := Bool.and_eq_true_iff.mp hh
          exact .inr ⟨c, by omega, by omega, h3, h4⟩
      · exact .inr ⟨d, by omega, by omega, h3, (other d h1 h2) ▸ h4⟩
    · rintro (hh | ⟨d, h1, h2, h3, h4⟩)
      · exact .inl (by simp [hh])
      · by_cases hd : d = c
        · subst hd; exact .inl (by simp [h3, h4])
        · exact .inr ⟨d, by omega, by omega, h3, (other d (by omega) (by omega)).symm ▸ h4⟩

/-- A pixel after a sequence of sprite rows from row y0. -/
theorem drawRows_pixel (x0 Y X : Nat) : ∀ (rows : List Byte) (y0 : Nat) (acc : Grid × Bool), rows.length ≤ 32 →
    (drawRows x0 y0 rows acc).1.pixel Y X = (acc.1.pixel Y X ^^ spriteCovers rows x0 y0 Y X) := by
  intro rows
  induction rows with
  | nil => intro y0 acc _; simp [drawRows, spriteCovers]
  | cons b rows ih =>
    intro y0 acc h
    simp only [List.length_cons] at h
    simp only [drawRows]
    rw [ih (y0 + 1) _ (by omega), drawRow, drawColumns_pixel _ _ _ _ _ _ _ _ (by decide)]
    simp only [spriteCovers, Config.spriteW, Nat.zero_le, true_and, Nat.zero_add]
    by_cases hy : y0 % 32 = Y % 32
    · have e1 : (Y % 32 + 32 - (y0 + 1) % 32) % 32 = 31 := by omega
      have e2 : rows[31]? = none := List.getElem?_eq_none (by omega)
      simp [hy, e1, e2]
    · have e : (Y % 32 + 32 - y0 % 32) % 32 = (Y % 32 + 32 - (y0 + 1) % 32) % 32 + 1 := by omega
      simp [hy, e]

/-- The hit after a sequence of sprite rows from row y0: a 1 bit met a pixel that was on before the draw. -/
theorem drawRows_hit (x0 : Nat) : ∀ (rows : List Byte) (y0 : Nat) (acc : Grid × Bool), rows.length ≤ 32 →
    ((drawRows x0 y0 rows acc).2 = true ↔ acc.2 = true ∨
      ∃ r c, c < 8 ∧ (rows[r]?.getD 0).getLsbD (7 - c) = true ∧ acc.1.pixel (y0 + r) (x0 + c) = true) := by
  intro rows
  induction rows with
  | nil => intro y0 acc _; simp [drawRows]
  | cons b rows ih =>
    intro y0 acc h
    simp only [List.length_cons] at h
    simp only [drawRows]
    rw [ih (y0 + 1) _ (by omega), drawRow, drawColumns_hit _ _ _ _ _ _ (by decide)]
    have other : ∀ r c, r < rows.length → (drawColumns y0 x0 b Config.spriteW 0 acc).1.pixel (y0 + 1 + r) (x0 + c) =
        acc.1.pixel (y0 + 1 + r) (x0 + c) := by
      intro r c hr
      have : ¬ y0 % 32 = (y0 + 1 + r) % 32 := by omega
      rw [drawColumns_pixel _ _ _ _ _ _ _ _ (by decide)]
      simp [this]
    have inside : ∀ (r c : Nat), (rows[r]?.getD 0).getLsbD (7 - c) = true → r < rows.length := by
      intro r c hb
      by_contra hn
      rw [List.getElem?_eq_none (by omega)] at hb
      simp at hb
    constructor
    · rintro ((hh | ⟨d, _, h2, h3, h4⟩) | ⟨r, c, hc, hb, hp⟩)
      · exact .inl hh
      · exact .inr ⟨0, d, by simpa using h2, by simpa using h3, h4⟩
      · rw [other r c (inside r c hb)] at hp
        exact .inr ⟨r + 1, c, hc, by simpa using hb, by rwa [show y0 + (r + 1) = y0 + 1 + r by omega]⟩
    · rintro (hh | ⟨r, c, hc, hb, hp⟩)
      · exact .inl (.inl hh)
      · cases r with
        | zero => exact .inl (.inr ⟨c, by omega, by simpa using hc, by simpa using hb, hp⟩)
        | succ r =>
          have hb : (rows[r]?.getD 0).getLsbD (7 - c) = true := by simpa using hb
          refine .inr ⟨r, c, hc, hb, ?_⟩
          rw [other r c (inside r c hb)]
          rwa [show y0 + 1 + r = y0 + (r + 1) by omega]

/-- THE BLITTER, the display: each pixel is the old one XOR the sprite bit that lands on it (R153, R154). -/
theorem drawSprite_pixel (g : Grid) (x0 y0 : Nat) (rows : List Byte) (h : rows.length ≤ 32) (y x : Nat) :
    (drawSprite g x0 y0 rows).1.pixel y x = (g.pixel y x ^^ spriteCovers rows x0 y0 y x) :=
  drawRows_pixel x0 y x rows y0 (g, false) h

/-- THE BLITTER, the collision: a pixel that was on is off after the draw (R155). -/
theorem drawSprite_hit (g : Grid) (x0 y0 : Nat) (rows : List Byte) (h : rows.length ≤ 32) :
    (drawSprite g x0 y0 rows).2 = true ↔
      ∃ y x, y < 32 ∧ x < 64 ∧ g.pixel y x = true ∧ (drawSprite g x0 y0 rows).1.pixel y x = false := by
  rw [drawSprite, drawRows_hit x0 rows y0 (g, false) h]
  have wrap : ∀ y x, g.pixel (y % 32) (x % 64) = g.pixel y x := by intro y x; simp [Grid.pixel]
  constructor
  · rintro (hh | ⟨r, c, hc, hb, hp⟩)
    · cases hh
    · have hr : r < rows.length := by
        by_contra hn
        rw [List.getElem?_eq_none (by omega)] at hb
        simp at hb
      refine ⟨(y0 + r) % 32, (x0 + c) % 64, by omega, by omega, by rw [wrap]; exact hp, ?_⟩
      rw [drawRows_pixel x0 _ _ rows y0 (g, false) h]
      have e1 : (((y0 + r) % 32) % 32 + 32 - y0 % 32) % 32 = r := by omega
      have e2 : (((x0 + c) % 64) % 64 + 64 - x0 % 64) % 64 = c := by omega
      simp only [wrap, hp, spriteCovers, e1, e2, hc, hb, decide_true, Bool.and_self, Bool.xor_self]
  · rintro ⟨y, x, hy, hx, hp, hq⟩
    rw [drawRows_pixel x0 _ _ rows y0 (g, false) h] at hq
    simp only [hp, Bool.true_xor, Bool.not_eq_false', spriteCovers, Bool.and_eq_true, decide_eq_true_eq] at hq
    refine .inr ⟨(y % 32 + 32 - y0 % 32) % 32, (x % 64 + 64 - x0 % 64) % 64, hq.1, hq.2, ?_⟩
    rw [← wrap, show (y0 + (y % 32 + 32 - y0 % 32) % 32) % 32 = y by omega,
      show (x0 + (x % 64 + 64 - x0 % 64) % 64) % 64 = x by omega]
    exact hp

end Sys2Proof.Machine
end

