-- ==== Sys2Proof/Laws/Encoding.lean ====
section
/-!
SUPPORT. The fields and the formats of an instruction word as numbers (30_encoding.md R71, R72), one lemma each, so that a
proof about encodings is arithmetic.
-/

namespace Sys2Proof

/-- `a || b` as a number (R10). -/
theorem append_toNat {m n : Nat} (a : BitVec m) (b : BitVec n) : (a ++ b).toNat = a.toNat * 2 ^ n + b.toNat := by
  rw [BitVec.toNat_append, ← Nat.shiftLeft_add_eq_or_of_lt b.isLt, Nat.shiftLeft_eq]

theorem Word.op_toNat (w : Word) : w.op.toNat = w.toNat / 4096 := by
  have := w.isLt
  simp [Word.op, BitVec.extractLsb'_toNat, Nat.shiftRight_eq_div_pow]; omega

theorem Word.x_toNat (w : Word) : w.x.toNat = w.toNat / 256 % 16 := by
  simp [Word.x, BitVec.extractLsb'_toNat, Nat.shiftRight_eq_div_pow]

theorem Word.y_toNat (w : Word) : w.y.toNat = w.toNat / 16 % 16 := by
  simp [Word.y, BitVec.extractLsb'_toNat, Nat.shiftRight_eq_div_pow]

theorem Word.n_toNat (w : Word) : w.n.toNat = w.toNat % 16 := by
  simp [Word.n]

theorem Word.nn_toNat (w : Word) : w.nn.toNat = w.toNat % 256 := by
  simp [Word.nn]

theorem Word.nnn_toNat (w : Word) : w.nnn.toNat = w.toNat % 4096 := by
  simp [Word.nnn]

theorem Word.hiByte_toNat (w : Word) : w.hiByte.toNat = w.toNat / 256 := by
  have := w.isLt
  simp [Word.hiByte, BitVec.extractLsb'_toNat, Nat.shiftRight_eq_div_pow]; omega

theorem Word.loByte_toNat (w : Word) : w.loByte.toNat = w.toNat % 256 := by
  simp [Word.loByte]

/-- Big-endian: the first byte is the more significant (R53). -/
theorem wordOfBytes_toNat (hi lo : Byte) : (wordOfBytes hi lo).toNat = hi.toNat * 256 + lo.toNat :=
  append_toNat hi lo

/-- The two bytes of a word give it back. -/
theorem wordOfBytes_hi_lo (w : Word) : wordOfBytes w.hiByte w.loByte = w := by
  apply BitVec.eq_of_toNat_eq
  rw [wordOfBytes_toNat, Word.hiByte_toNat, Word.loByte_toNat]; omega

/-- Format A of R72. -/
theorem formatA_toNat (op : Nibble) (nnn : Addr) : (formatA op nnn).toNat = op.toNat * 4096 + nnn.toNat :=
  append_toNat op nnn

/-- Formats RI and R1 of R72. -/
theorem formatRI_toNat (op x : Nibble) (nn : Byte) :
    (formatRI op x nn).toNat = op.toNat * 4096 + x.toNat * 256 + nn.toNat := by
  have h : (formatRI op x nn).toNat = (op ++ x).toNat * 256 + nn.toNat := append_toNat (op ++ x) nn
  rw [h, append_toNat]; omega

/-- Formats RR and D of R72. -/
theorem formatRR_toNat (op x y n : Nibble) :
    (formatRR op x y n).toNat = op.toNat * 4096 + x.toNat * 256 + y.toNat * 16 + n.toNat := by
  have h : (formatRR op x y n).toNat = (op ++ x ++ y).toNat * 16 + n.toNat := append_toNat (op ++ x ++ y) n
  have h' : (op ++ x ++ y).toNat = (op ++ x).toNat * 16 + y.toNat := append_toNat (op ++ x) y
  rw [h, h', append_toNat]; omega

end Sys2Proof
end

