-- ==== Sys2Proof/Laws/Memory.lean ====
section
/-!
SUPPORT. The laws of memory: a read after a write (R58), other addresses left alone, and the canonical form (log 3),
which every memory operation keeps.
-/

namespace Sys2Proof.Machine

/-- Taking the pairs of `a` out leaves `a` reading its initial byte and every other address as before. -/
theorem Memory.get_filter (m : Memory) (a k : Nat) :
    Memory.get (m.filter fun c => c.1 != a) k = if k = a then initialByte a else m.get k := by
  induction m with
  | nil => simp [Memory.get]; intro h; rw [h]
  | cons c m ih =>
    obtain ⟨j, b⟩ := c
    by_cases hj : j = a
    · subst hj
      simp only [List.filter_cons, bne_self_eq_false, Bool.false_eq_true, if_false, ih, Memory.get]
      split <;> rfl
    · have hb : (j != a) = true := by simpa using hj
      simp only [List.filter_cons, hb, if_true, Memory.get, ih]
      split
      · rename_i h; subst h; simp [hj]
      · rfl

/-- A pair put into a memory that lists no pair of its address. -/
theorem Memory.get_insert (m : Memory) (a k : Nat) (b : Byte) (h : ∀ c ∈ m, c.1 ≠ a) :
    (Memory.insert a b m).get k = if k = a then b else m.get k := by
  induction m with
  | nil => rfl
  | cons c m ih =>
    obtain ⟨j, d⟩ := c
    have hj : j ≠ a := h (j, d) (by simp)
    have ih := ih fun c hc => h c (List.mem_cons_of_mem _ hc)
    simp only [Memory.insert]
    split
    · rfl
    · simp only [Memory.get, ih]
      by_cases hk : k = a
      · subst hk; simp [Ne.symm hj]
      · simp [hk]

theorem Memory.mem_filter_ne (m : Memory) (a : Nat) : ∀ c ∈ m.filter (fun c => c.1 != a), c.1 ≠ a := by
  intro c hc; simpa using (List.mem_filter.mp hc).2

/-- `mem[a]` after `mem[k] <- b` (R58): the byte written, or the old byte of another address. -/
@[simp] theorem Memory.get_set (m : Memory) (a k : Nat) (b : Byte) :
    (m.set a b).get k = if k = a then b else m.get k := by
  unfold Memory.set
  split
  · rename_i h; rw [Memory.get_filter, h]
  · rw [Memory.get_insert _ _ _ _ (Memory.mem_filter_ne m a), Memory.get_filter]
    split <;> simp_all

/-- A block of bytes written at `a`: inside it the block, outside it the old bytes (R51). -/
theorem Memory.get_setBytes (bs : List Byte) : ∀ (m : Memory) (a k : Nat),
    (m.setBytes a bs).get k = if h : a ≤ k ∧ k < a + bs.length then bs[k - a]'(by omega) else m.get k := by
  induction bs with
  | nil => intro m a k; rw [dif_neg (by simp)]; rfl
  | cons b bs ih =>
    intro m a k
    simp only [Memory.setBytes, ih, Memory.get_set, List.length_cons]
    by_cases hk : k = a
    · subst hk; simp
    · by_cases h : a + 1 ≤ k ∧ k < a + 1 + bs.length
      · have e : k - a = (k - (a + 1)) + 1 := by omega
        rw [dif_pos h, dif_pos (by omega)]
        simp [e]
      · rw [dif_neg h, dif_neg (by omega), if_neg hk]

/-- Bytes outside a written block read as before. -/
theorem Memory.get_setBytes_outside (bs : List Byte) (m : Memory) (a k : Nat) (h : k < a ∨ a + bs.length ≤ k) :
    (m.setBytes a bs).get k = m.get k := by
  rw [Memory.get_setBytes, dif_neg (by omega)]

/-- A big-endian word read back where it was written (R53). -/
theorem Memory.getWord_setWord (m : Memory) (a : Nat) (w : Word) : (m.setWord a w).getWord a = w := by
  have h : (w.extractLsb' 8 8 ++ w.extractLsb' 0 8 : BitVec 16) = w :=
    (BitVec.extractLsb'_append_extractLsb'_eq_extractLsb' rfl).trans (by simp)
  simpa [Memory.getWord, Memory.setWord, Memory.get_setBytes] using h

theorem Memory.mem_insert (m : Memory) (a : Nat) (b : Byte) (c : Host.Cell) :
    c ∈ Memory.insert a b m → c = (a, b) ∨ c ∈ m := by
  induction m with
  | nil => simp [Memory.insert]
  | cons d m ih =>
    obtain ⟨j, e⟩ := d
    simp only [Memory.insert]
    split
    · simp
    · intro h
      rcases List.mem_cons.mp h with h | h
      · exact .inr (h ▸ List.mem_cons_self)
      · exact (ih h).imp_right (List.mem_cons_of_mem _)

theorem Memory.insert_pairwise (m : Memory) (a : Nat) (b : Byte) (hm : m.Pairwise fun c d => c.1 < d.1)
    (ha : ∀ c ∈ m, c.1 ≠ a) : (Memory.insert a b m).Pairwise fun c d => c.1 < d.1 := by
  induction m with
  | nil => simp [Memory.insert]
  | cons d m ih =>
    obtain ⟨j, e⟩ := d
    obtain ⟨hj, hm⟩ := List.pairwise_cons.mp hm
    simp only [Memory.insert]
    split
    · rename_i h
      refine List.pairwise_cons.mpr ⟨?_, List.pairwise_cons.mpr ⟨hj, hm⟩⟩
      intro c hc
      rcases List.mem_cons.mp hc with rfl | hc
      · exact h
      · exact h.trans (hj c hc)
    · rename_i h
      have hja : j ≠ a := ha (j, e) (by simp)
      refine List.pairwise_cons.mpr ⟨?_, ih hm fun c hc => ha c (List.mem_cons_of_mem _ hc)⟩
      intro c hc
      rcases Memory.mem_insert m a b c hc with rfl | hc
      · simp only; omega
      · exact hj c hc

/-- A write inside the address space keeps the canonical form. -/
theorem Memory.set_wf (m : Memory) (a : Nat) (b : Byte) (hm : m.wf) (ha : a < 4096) : (m.set a b).wf := by
  have hf : (m.filter fun c => c.1 != a).Pairwise fun c d => c.1 < d.1 := hm.1.filter _
  have hmem : ∀ c ∈ m.filter (fun c => c.1 != a), c.1 < 4096 ∧ c.2 ≠ initialByte c.1 :=
    fun c hc => hm.2 c (List.mem_filter.mp hc).1
  unfold Memory.set
  split
  · exact ⟨hf, hmem⟩
  · rename_i hb
    refine ⟨Memory.insert_pairwise _ a b hf (Memory.mem_filter_ne m a), fun c hc => ?_⟩
    rcases Memory.mem_insert _ a b c hc with rfl | hc
    · exact ⟨ha, hb⟩
    · exact hmem c hc

/-- A block written inside the address space keeps the canonical form. -/
theorem Memory.setBytes_wf (bs : List Byte) : ∀ (m : Memory) (a : Nat), m.wf → a + bs.length ≤ 4096 →
    (m.setBytes a bs).wf := by
  induction bs with
  | nil => intro m a hm _; exact hm
  | cons b bs ih =>
    intro m a hm h
    simp only [List.length_cons] at h
    exact ih (m.set a b) (a + 1) (m.set_wf a b hm (by omega)) (by omega)

/-- A word written inside the address space keeps the canonical form. -/
theorem Memory.setWord_wf (m : Memory) (a : Nat) (w : Word) (hm : m.wf) (h : a + 2 ≤ 4096) : (m.setWord a w).wf :=
  Memory.setBytes_wf _ m a hm h

/-- The checked write of R51 keeps the canonical form. -/
theorem Memory.writeByte_wf (m m' : Memory) (a : Nat) (b : Byte) (hm : m.wf) (h : m.writeByte a b = .ok m') :
    m'.wf := by
  unfold Memory.writeByte at h
  split at h
  · rename_i ha; cases h; exact m.set_wf a b hm ha
  · cases h

end Sys2Proof.Machine
end

