-- ==== Sys2Proof/Laws/State.lean ====
section
/-!
SUPPORT. One lemma per field per named update of the state, true by rfl: no later proof unfolds a record update.
-/

namespace Sys2Proof.Machine

variable (s : State)

@[simp] theorem State.setV_v (x : Nibble) (b : Byte) : (s.setV x b).v = s.v.set x.toNat b x.isLt := rfl
@[simp] theorem State.setV_i (x : Nibble) (b : Byte) : (s.setV x b).i = s.i := rfl
@[simp] theorem State.setV_pc (x : Nibble) (b : Byte) : (s.setV x b).pc = s.pc := rfl
@[simp] theorem State.setV_stack (x : Nibble) (b : Byte) : (s.setV x b).stack = s.stack := rfl
@[simp] theorem State.setV_dt (x : Nibble) (b : Byte) : (s.setV x b).dt = s.dt := rfl
@[simp] theorem State.setV_st (x : Nibble) (b : Byte) : (s.setV x b).st = s.st := rfl
@[simp] theorem State.setV_mem (x : Nibble) (b : Byte) : (s.setV x b).mem = s.mem := rfl
@[simp] theorem State.setV_disp (x : Nibble) (b : Byte) : (s.setV x b).disp = s.disp := rfl
@[simp] theorem State.setV_keys (x : Nibble) (b : Byte) : (s.setV x b).keys = s.keys := rfl
@[simp] theorem State.setV_kw (x : Nibble) (b : Byte) : (s.setV x b).kw = s.kw := rfl
@[simp] theorem State.setV_policy (x : Nibble) (b : Byte) : (s.setV x b).policy = s.policy := rfl
@[simp] theorem State.setV_draws (x : Nibble) (b : Byte) : (s.setV x b).draws = s.draws := rfl
@[simp] theorem State.setV_getKey (x : Nibble) (b : Byte) (r : Nibble) : (s.setV x b).getKey r = s.getKey r := rfl

@[simp] theorem State.setI_v (w : Word) : (s.setI w).v = s.v := rfl
@[simp] theorem State.setI_i (w : Word) : (s.setI w).i = w := rfl
@[simp] theorem State.setI_pc (w : Word) : (s.setI w).pc = s.pc := rfl
@[simp] theorem State.setI_stack (w : Word) : (s.setI w).stack = s.stack := rfl
@[simp] theorem State.setI_dt (w : Word) : (s.setI w).dt = s.dt := rfl
@[simp] theorem State.setI_st (w : Word) : (s.setI w).st = s.st := rfl
@[simp] theorem State.setI_mem (w : Word) : (s.setI w).mem = s.mem := rfl
@[simp] theorem State.setI_disp (w : Word) : (s.setI w).disp = s.disp := rfl
@[simp] theorem State.setI_keys (w : Word) : (s.setI w).keys = s.keys := rfl
@[simp] theorem State.setI_kw (w : Word) : (s.setI w).kw = s.kw := rfl
@[simp] theorem State.setI_policy (w : Word) : (s.setI w).policy = s.policy := rfl
@[simp] theorem State.setI_draws (w : Word) : (s.setI w).draws = s.draws := rfl
@[simp] theorem State.setI_getV (w : Word) (r : Nibble) : (s.setI w).getV r = s.getV r := rfl
@[simp] theorem State.setI_getKey (w : Word) (r : Nibble) : (s.setI w).getKey r = s.getKey r := rfl

@[simp] theorem State.setPc_v (w : Word) : (s.setPc w).v = s.v := rfl
@[simp] theorem State.setPc_i (w : Word) : (s.setPc w).i = s.i := rfl
@[simp] theorem State.setPc_pc (w : Word) : (s.setPc w).pc = w := rfl
@[simp] theorem State.setPc_stack (w : Word) : (s.setPc w).stack = s.stack := rfl
@[simp] theorem State.setPc_dt (w : Word) : (s.setPc w).dt = s.dt := rfl
@[simp] theorem State.setPc_st (w : Word) : (s.setPc w).st = s.st := rfl
@[simp] theorem State.setPc_mem (w : Word) : (s.setPc w).mem = s.mem := rfl
@[simp] theorem State.setPc_disp (w : Word) : (s.setPc w).disp = s.disp := rfl
@[simp] theorem State.setPc_keys (w : Word) : (s.setPc w).keys = s.keys := rfl
@[simp] theorem State.setPc_kw (w : Word) : (s.setPc w).kw = s.kw := rfl
@[simp] theorem State.setPc_policy (w : Word) : (s.setPc w).policy = s.policy := rfl
@[simp] theorem State.setPc_draws (w : Word) : (s.setPc w).draws = s.draws := rfl
@[simp] theorem State.setPc_getV (w : Word) (r : Nibble) : (s.setPc w).getV r = s.getV r := rfl
@[simp] theorem State.setPc_getKey (w : Word) (r : Nibble) : (s.setPc w).getKey r = s.getKey r := rfl

@[simp] theorem State.setDt_v (b : Byte) : (s.setDt b).v = s.v := rfl
@[simp] theorem State.setDt_i (b : Byte) : (s.setDt b).i = s.i := rfl
@[simp] theorem State.setDt_pc (b : Byte) : (s.setDt b).pc = s.pc := rfl
@[simp] theorem State.setDt_stack (b : Byte) : (s.setDt b).stack = s.stack := rfl
@[simp] theorem State.setDt_dt (b : Byte) : (s.setDt b).dt = b := rfl
@[simp] theorem State.setDt_st (b : Byte) : (s.setDt b).st = s.st := rfl
@[simp] theorem State.setDt_mem (b : Byte) : (s.setDt b).mem = s.mem := rfl
@[simp] theorem State.setDt_disp (b : Byte) : (s.setDt b).disp = s.disp := rfl
@[simp] theorem State.setDt_keys (b : Byte) : (s.setDt b).keys = s.keys := rfl
@[simp] theorem State.setDt_kw (b : Byte) : (s.setDt b).kw = s.kw := rfl
@[simp] theorem State.setDt_policy (b : Byte) : (s.setDt b).policy = s.policy := rfl
@[simp] theorem State.setDt_draws (b : Byte) : (s.setDt b).draws = s.draws := rfl
@[simp] theorem State.setDt_getV (b : Byte) (r : Nibble) : (s.setDt b).getV r = s.getV r := rfl
@[simp] theorem State.setDt_getKey (b : Byte) (r : Nibble) : (s.setDt b).getKey r = s.getKey r := rfl

@[simp] theorem State.setSt_v (b : Byte) : (s.setSt b).v = s.v := rfl
@[simp] theorem State.setSt_i (b : Byte) : (s.setSt b).i = s.i := rfl
@[simp] theorem State.setSt_pc (b : Byte) : (s.setSt b).pc = s.pc := rfl
@[simp] theorem State.setSt_stack (b : Byte) : (s.setSt b).stack = s.stack := rfl
@[simp] theorem State.setSt_dt (b : Byte) : (s.setSt b).dt = s.dt := rfl
@[simp] theorem State.setSt_st (b : Byte) : (s.setSt b).st = b := rfl
@[simp] theorem State.setSt_mem (b : Byte) : (s.setSt b).mem = s.mem := rfl
@[simp] theorem State.setSt_disp (b : Byte) : (s.setSt b).disp = s.disp := rfl
@[simp] theorem State.setSt_keys (b : Byte) : (s.setSt b).keys = s.keys := rfl
@[simp] theorem State.setSt_kw (b : Byte) : (s.setSt b).kw = s.kw := rfl
@[simp] theorem State.setSt_policy (b : Byte) : (s.setSt b).policy = s.policy := rfl
@[simp] theorem State.setSt_draws (b : Byte) : (s.setSt b).draws = s.draws := rfl
@[simp] theorem State.setSt_getV (b : Byte) (r : Nibble) : (s.setSt b).getV r = s.getV r := rfl
@[simp] theorem State.setSt_getKey (b : Byte) (r : Nibble) : (s.setSt b).getKey r = s.getKey r := rfl

@[simp] theorem State.setKw_v (k : KeyWait) : (s.setKw k).v = s.v := rfl
@[simp] theorem State.setKw_i (k : KeyWait) : (s.setKw k).i = s.i := rfl
@[simp] theorem State.setKw_pc (k : KeyWait) : (s.setKw k).pc = s.pc := rfl
@[simp] theorem State.setKw_stack (k : KeyWait) : (s.setKw k).stack = s.stack := rfl
@[simp] theorem State.setKw_dt (k : KeyWait) : (s.setKw k).dt = s.dt := rfl
@[simp] theorem State.setKw_st (k : KeyWait) : (s.setKw k).st = s.st := rfl
@[simp] theorem State.setKw_mem (k : KeyWait) : (s.setKw k).mem = s.mem := rfl
@[simp] theorem State.setKw_disp (k : KeyWait) : (s.setKw k).disp = s.disp := rfl
@[simp] theorem State.setKw_keys (k : KeyWait) : (s.setKw k).keys = s.keys := rfl
@[simp] theorem State.setKw_kw (k : KeyWait) : (s.setKw k).kw = k := rfl
@[simp] theorem State.setKw_policy (k : KeyWait) : (s.setKw k).policy = s.policy := rfl
@[simp] theorem State.setKw_draws (k : KeyWait) : (s.setKw k).draws = s.draws := rfl
@[simp] theorem State.setKw_getV (k : KeyWait) (r : Nibble) : (s.setKw k).getV r = s.getV r := rfl
@[simp] theorem State.setKw_getKey (k : KeyWait) (r : Nibble) : (s.setKw k).getKey r = s.getKey r := rfl

@[simp] theorem State.setStack_v (l : List Word) : (s.setStack l).v = s.v := rfl
@[simp] theorem State.setStack_i (l : List Word) : (s.setStack l).i = s.i := rfl
@[simp] theorem State.setStack_pc (l : List Word) : (s.setStack l).pc = s.pc := rfl
@[simp] theorem State.setStack_stack (l : List Word) : (s.setStack l).stack = l := rfl
@[simp] theorem State.setStack_dt (l : List Word) : (s.setStack l).dt = s.dt := rfl
@[simp] theorem State.setStack_st (l : List Word) : (s.setStack l).st = s.st := rfl
@[simp] theorem State.setStack_mem (l : List Word) : (s.setStack l).mem = s.mem := rfl
@[simp] theorem State.setStack_disp (l : List Word) : (s.setStack l).disp = s.disp := rfl
@[simp] theorem State.setStack_keys (l : List Word) : (s.setStack l).keys = s.keys := rfl
@[simp] theorem State.setStack_kw (l : List Word) : (s.setStack l).kw = s.kw := rfl
@[simp] theorem State.setStack_policy (l : List Word) : (s.setStack l).policy = s.policy := rfl
@[simp] theorem State.setStack_draws (l : List Word) : (s.setStack l).draws = s.draws := rfl
@[simp] theorem State.setStack_getV (l : List Word) (r : Nibble) : (s.setStack l).getV r = s.getV r := rfl
@[simp] theorem State.setStack_getKey (l : List Word) (r : Nibble) : (s.setStack l).getKey r = s.getKey r := rfl

@[simp] theorem State.setMem_v (m : Memory) : (s.setMem m).v = s.v := rfl
@[simp] theorem State.setMem_i (m : Memory) : (s.setMem m).i = s.i := rfl
@[simp] theorem State.setMem_pc (m : Memory) : (s.setMem m).pc = s.pc := rfl
@[simp] theorem State.setMem_stack (m : Memory) : (s.setMem m).stack = s.stack := rfl
@[simp] theorem State.setMem_dt (m : Memory) : (s.setMem m).dt = s.dt := rfl
@[simp] theorem State.setMem_st (m : Memory) : (s.setMem m).st = s.st := rfl
@[simp] theorem State.setMem_mem (m : Memory) : (s.setMem m).mem = m := rfl
@[simp] theorem State.setMem_disp (m : Memory) : (s.setMem m).disp = s.disp := rfl
@[simp] theorem State.setMem_keys (m : Memory) : (s.setMem m).keys = s.keys := rfl
@[simp] theorem State.setMem_kw (m : Memory) : (s.setMem m).kw = s.kw := rfl
@[simp] theorem State.setMem_policy (m : Memory) : (s.setMem m).policy = s.policy := rfl
@[simp] theorem State.setMem_draws (m : Memory) : (s.setMem m).draws = s.draws := rfl
@[simp] theorem State.setMem_getV (m : Memory) (r : Nibble) : (s.setMem m).getV r = s.getV r := rfl
@[simp] theorem State.setMem_getKey (m : Memory) (r : Nibble) : (s.setMem m).getKey r = s.getKey r := rfl

@[simp] theorem State.setDisp_v (g : Grid) : (s.setDisp g).v = s.v := rfl
@[simp] theorem State.setDisp_i (g : Grid) : (s.setDisp g).i = s.i := rfl
@[simp] theorem State.setDisp_pc (g : Grid) : (s.setDisp g).pc = s.pc := rfl
@[simp] theorem State.setDisp_stack (g : Grid) : (s.setDisp g).stack = s.stack := rfl
@[simp] theorem State.setDisp_dt (g : Grid) : (s.setDisp g).dt = s.dt := rfl
@[simp] theorem State.setDisp_st (g : Grid) : (s.setDisp g).st = s.st := rfl
@[simp] theorem State.setDisp_mem (g : Grid) : (s.setDisp g).mem = s.mem := rfl
@[simp] theorem State.setDisp_disp (g : Grid) : (s.setDisp g).disp = g := rfl
@[simp] theorem State.setDisp_keys (g : Grid) : (s.setDisp g).keys = s.keys := rfl
@[simp] theorem State.setDisp_kw (g : Grid) : (s.setDisp g).kw = s.kw := rfl
@[simp] theorem State.setDisp_policy (g : Grid) : (s.setDisp g).policy = s.policy := rfl
@[simp] theorem State.setDisp_draws (g : Grid) : (s.setDisp g).draws = s.draws := rfl
@[simp] theorem State.setDisp_getV (g : Grid) (r : Nibble) : (s.setDisp g).getV r = s.getV r := rfl
@[simp] theorem State.setDisp_getKey (g : Grid) (r : Nibble) : (s.setDisp g).getKey r = s.getKey r := rfl

@[simp] theorem State.setKeyState_v (k : Nibble) (p : Bool) : (s.setKeyState k p).v = s.v := rfl
@[simp] theorem State.setKeyState_i (k : Nibble) (p : Bool) : (s.setKeyState k p).i = s.i := rfl
@[simp] theorem State.setKeyState_pc (k : Nibble) (p : Bool) : (s.setKeyState k p).pc = s.pc := rfl
@[simp] theorem State.setKeyState_stack (k : Nibble) (p : Bool) : (s.setKeyState k p).stack = s.stack := rfl
@[simp] theorem State.setKeyState_dt (k : Nibble) (p : Bool) : (s.setKeyState k p).dt = s.dt := rfl
@[simp] theorem State.setKeyState_st (k : Nibble) (p : Bool) : (s.setKeyState k p).st = s.st := rfl
@[simp] theorem State.setKeyState_mem (k : Nibble) (p : Bool) : (s.setKeyState k p).mem = s.mem := rfl
@[simp] theorem State.setKeyState_disp (k : Nibble) (p : Bool) : (s.setKeyState k p).disp = s.disp := rfl
@[simp] theorem State.setKeyState_keys (k : Nibble) (p : Bool) : (s.setKeyState k p).keys = s.keys.set k.toNat p k.isLt := rfl
@[simp] theorem State.setKeyState_kw (k : Nibble) (p : Bool) : (s.setKeyState k p).kw = s.kw := rfl
@[simp] theorem State.setKeyState_policy (k : Nibble) (p : Bool) : (s.setKeyState k p).policy = s.policy := rfl
@[simp] theorem State.setKeyState_draws (k : Nibble) (p : Bool) : (s.setKeyState k p).draws = s.draws := rfl
@[simp] theorem State.setKeyState_getV (k : Nibble) (p : Bool) (r : Nibble) : (s.setKeyState k p).getV r = s.getV r := rfl

@[simp] theorem State.nextDraw_v : s.nextDraw.v = s.v := rfl
@[simp] theorem State.nextDraw_i : s.nextDraw.i = s.i := rfl
@[simp] theorem State.nextDraw_pc : s.nextDraw.pc = s.pc := rfl
@[simp] theorem State.nextDraw_stack : s.nextDraw.stack = s.stack := rfl
@[simp] theorem State.nextDraw_dt : s.nextDraw.dt = s.dt := rfl
@[simp] theorem State.nextDraw_st : s.nextDraw.st = s.st := rfl
@[simp] theorem State.nextDraw_mem : s.nextDraw.mem = s.mem := rfl
@[simp] theorem State.nextDraw_disp : s.nextDraw.disp = s.disp := rfl
@[simp] theorem State.nextDraw_keys : s.nextDraw.keys = s.keys := rfl
@[simp] theorem State.nextDraw_kw : s.nextDraw.kw = s.kw := rfl
@[simp] theorem State.nextDraw_policy : s.nextDraw.policy = s.policy := rfl
@[simp] theorem State.nextDraw_draws : s.nextDraw.draws = s.draws + 1 := rfl
@[simp] theorem State.nextDraw_getV (r : Nibble) : s.nextDraw.getV r = s.getV r := rfl
@[simp] theorem State.nextDraw_getKey (r : Nibble) : s.nextDraw.getKey r = s.getKey r := rfl

@[simp] theorem State.push_v (w : Word) : (s.push w).v = s.v := rfl
@[simp] theorem State.push_i (w : Word) : (s.push w).i = s.i := rfl
@[simp] theorem State.push_pc (w : Word) : (s.push w).pc = s.pc := rfl
@[simp] theorem State.push_stack (w : Word) : (s.push w).stack = w :: s.stack := rfl
@[simp] theorem State.push_dt (w : Word) : (s.push w).dt = s.dt := rfl
@[simp] theorem State.push_st (w : Word) : (s.push w).st = s.st := rfl
@[simp] theorem State.push_mem (w : Word) : (s.push w).mem = s.mem := rfl
@[simp] theorem State.push_disp (w : Word) : (s.push w).disp = s.disp := rfl
@[simp] theorem State.push_keys (w : Word) : (s.push w).keys = s.keys := rfl
@[simp] theorem State.push_kw (w : Word) : (s.push w).kw = s.kw := rfl
@[simp] theorem State.push_policy (w : Word) : (s.push w).policy = s.policy := rfl
@[simp] theorem State.push_draws (w : Word) : (s.push w).draws = s.draws := rfl
@[simp] theorem State.push_getV (w : Word) (r : Nibble) : (s.push w).getV r = s.getV r := rfl
@[simp] theorem State.push_getKey (w : Word) (r : Nibble) : (s.push w).getKey r = s.getKey r := rfl

@[simp] theorem State.advance_v : s.advance.v = s.v := rfl
@[simp] theorem State.advance_i : s.advance.i = s.i := rfl
@[simp] theorem State.advance_pc : s.advance.pc = s.pc + 2 := rfl
@[simp] theorem State.advance_stack : s.advance.stack = s.stack := rfl
@[simp] theorem State.advance_dt : s.advance.dt = s.dt := rfl
@[simp] theorem State.advance_st : s.advance.st = s.st := rfl
@[simp] theorem State.advance_mem : s.advance.mem = s.mem := rfl
@[simp] theorem State.advance_disp : s.advance.disp = s.disp := rfl
@[simp] theorem State.advance_keys : s.advance.keys = s.keys := rfl
@[simp] theorem State.advance_kw : s.advance.kw = s.kw := rfl
@[simp] theorem State.advance_policy : s.advance.policy = s.policy := rfl
@[simp] theorem State.advance_draws : s.advance.draws = s.draws := rfl
@[simp] theorem State.advance_getV (r : Nibble) : s.advance.getV r = s.getV r := rfl
@[simp] theorem State.advance_getKey (r : Nibble) : s.advance.getKey r = s.getKey r := rfl

/-- Reading a register after a write: the written one, or the old value of another (R21: no aliases). -/
@[simp] theorem State.setV_getV (x r : Nibble) (b : Byte) :
    (s.setV x b).getV r = if r = x then b else s.getV r := by
  simp only [State.getV, State.setV, Vector.getElem_set, BitVec.toNat_inj, eq_comm]

/-- Reading a key after a write (R31). -/
@[simp] theorem State.setKeyState_getKey (k r : Nibble) (p : Bool) :
    (s.setKeyState k p).getKey r = if r = k then p else s.getKey r := by
  simp only [State.getKey, State.setKeyState, Vector.getElem_set, BitVec.toNat_inj, eq_comm]

/-- Two register files that read alike everywhere are equal. -/
theorem State.v_ext {s t : State} (h : ∀ x, t.getV x = s.getV x) : t.v = s.v := by
  apply Vector.ext
  intro j hj
  have := h (BitVec.ofNat 4 j)
  simpa [State.getV, Nat.mod_eq_of_lt hj] using this

/-- The flag write touches only VF (R23). -/
theorem State.setFlag_eq (f : Bool) : s.setFlag f = s.setV 0xF (if f then 1 else 0) := rfl

/-- What a result write followed by a flag write leaves in each register: VF the flag, VX the result unless it is VF
(R132, D5), the rest as before. -/
theorem State.setResultFlag_getV (x r : Nibble) (b : Byte) (f : Bool) :
    (s.setResultFlag x b f).getV r =
      if r = 0xF then (if f then 1 else 0) else if r = x then b else s.getV r := by
  simp [State.setResultFlag, State.setFlag]

end Sys2Proof.Machine
end

