-- ==== Sys2Proof/Laws/Ops.lean ====
section
/-!
SUPPORT. One lemma per shared operation: what the operand forms, the block transfers and the parts of the step cycle give.
-/

namespace Sys2Proof.Machine

variable (s : State)

/-- Inside a handler a is PC - 2 (R93): the default advance undone gives the instruction's address. -/
@[simp] theorem State.advance_instrAddr : s.advance.instrAddr = s.pc := by
  simp [State.instrAddr]

/-- The skip mechanism writes PC alone (R114). -/
theorem skipIf_eq (c : Bool) : skipIf c s = s.setPc (if c then s.pc + 2 else s.pc) := by
  cases c <;> rfl

/-- The low nibble as a number (R142, R160). -/
theorem State.lowNibble_toNat (x : Nibble) : (s.lowNibble x).toNat = (s.getV x).toNat % 16 := by
  simp [State.lowNibble]

/-- The glyph addresses as numbers (R33, R142). -/
theorem fontAddress_toNat (d : Nibble) : (fontAddress d).toNat = 5 * d.toNat := by
  have := d.isLt
  simp [fontAddress]; omega

/-- The jump-with-offset target is the exact sum (R103). -/
theorem State.jumpOffsetTarget_toNat (nnn : Addr) :
    (s.jumpOffsetTarget nnn).toNat = nnn.toNat + (s.getV 0).toNat := by
  have := nnn.isLt; have := (s.getV 0).isLt
  simp [State.jumpOffsetTarget, Addr.toWord, Byte.toWord]; omega

/-- The range check is on unbounded integers (R55). -/
theorem State.rangeOutside_iff (k : Nat) : s.rangeOutside k = true ↔ 0xFFF < s.i.toNat + k := by
  simp [State.rangeOutside]

/-- V0..VX is X + 1 bytes (R144). -/
@[simp] theorem State.regBlock_length (x : Nibble) : (s.regBlock x).length = x.toNat + 1 := by
  have := x.isLt
  simp [State.regBlock]; omega

/-- Byte y of the block V0..VX is VY (R144). -/
theorem State.regBlock_get (x y : Nibble) (h : y.toNat < (s.regBlock x).length) :
    (s.regBlock x)[y.toNat] = s.getV y := by
  simp [State.regBlock, State.getV]

/-- The digits as numbers (R143). -/
theorem bcdDigits_toNat (b : Byte) :
    (bcdDigits b).map BitVec.toNat = [b.toNat / 100, b.toNat / 10 % 10, b.toNat % 10] := by
  simp [bcdDigits]

/-- A register after a block load: the first k from memory, the others as before (R145). -/
theorem loadBlock_getV (m : Memory) (a k : Nat) (y : Nibble) :
    ({ s with v := loadBlock m a k s.v } : State).getV y =
      if y.toNat < k then m.get (a + y.toNat) else s.getV y := by
  simp [State.getV, loadBlock]

/-- The sprite is N rows (R152). -/
@[simp] theorem State.spriteRows_length (n : Nibble) : (s.spriteRows n).length = n.toNat := by
  simp [State.spriteRows]

/-- Row r of the sprite is the byte at (I + r) modulo 4096 (R56). -/
theorem State.spriteRows_get (n : Nibble) (r : Nat) :
    (s.spriteRows n)[r]?.getD 0 = if r < n.toNat then s.mem.get ((s.i.toNat + r) % 4096) else 0 := by
  by_cases h : r < n.toNat <;> simp [State.spriteRows, h]

/-- Fetch in range gives the word at PC (R91). -/
theorem State.fetch_ok (h : s.pc.toNat ≤ 0xFFE) : s.fetch = .ok (s.mem.getWord s.pc.toNat) := by
  simp only [State.fetch]; rw [if_neg (by omega)]

/-- Fetch beyond memory is OutOfBoundsAccess (R57). -/
theorem State.fetch_error (h : 0xFFE < s.pc.toNat) :
    s.fetch = .error (.outOfBoundsAccess (max s.pc.toNat 0x1000)) := by
  simp only [State.fetch]; rw [if_pos h]; rfl

end Sys2Proof.Machine
end

