-- ==== Sys2Proof/Laws/PerInstr.lean ====
section
/-!
SUPPORT. The family TableRow: the word of every instruction lies in its own row of spec/opcode_table.json, that is, under the
row's mask it is the row's match; one lemma per constructor, over the three shapes of a word.
-/

namespace Sys2Proof.Laws.TableRow

/-- The encoding of `i` matches the row of its mnemonic. -/
def Statement (i : Instr) : Prop := encode i &&& i.row.2 = i.row.1

/-- A word of format A under the mask 0xF000 is its leading nibble. -/
theorem formatA_masked (op : Nibble) (nnn : Addr) : formatA op nnn &&& 0xF000 = formatA op 0 := by
  apply BitVec.eq_of_getLsbD_eq
  intro j hj
  have bit : ∀ n : Addr, (formatA op n).getLsbD j = if j < 12 then n.getLsbD j else op.getLsbD (j - 12) :=
    fun n => BitVec.getLsbD_append
  rw [BitVec.getLsbD_and, bit, bit]
  interval_cases j <;> simp

/-- A word of format RI under the mask 0xF000, and under the mask 0xF0FF of format R1. -/
theorem formatRI_masked (op x : Nibble) (nn : Byte) :
    formatRI op x nn &&& 0xF000 = formatRI op 0 0 ∧ formatRI op x nn &&& 0xF0FF = formatRI op 0 nn := by
  have bit : ∀ (x : Nibble) (nn : Byte) j, (formatRI op x nn).getLsbD j =
      if j < 8 then nn.getLsbD j else if j - 8 < 4 then x.getLsbD (j - 8) else op.getLsbD (j - 8 - 4) := by
    intro x nn j
    rw [← BitVec.getLsbD_append]; exact BitVec.getLsbD_append
  constructor <;> apply BitVec.eq_of_getLsbD_eq <;> intro j hj <;> rw [BitVec.getLsbD_and, bit, bit] <;>
    interval_cases j <;> simp

/-- A word of format RR under the mask 0xF00F, and one of format D under the mask 0xF000. -/
theorem formatRR_masked (op x y n : Nibble) :
    formatRR op x y n &&& 0xF00F = formatRR op 0 0 n ∧ formatRR op x y n &&& 0xF000 = formatRR op 0 0 0 := by
  have bit : ∀ (x y n : Nibble) j, (formatRR op x y n).getLsbD j =
      if j < 4 then n.getLsbD j else if j - 4 < 4 then y.getLsbD (j - 4) else
        if j - 4 - 4 < 4 then x.getLsbD (j - 4 - 4) else op.getLsbD (j - 4 - 4 - 4) := by
    intro x y n j
    rw [← BitVec.getLsbD_append, ← BitVec.getLsbD_append]; exact BitVec.getLsbD_append
  constructor <;> apply BitVec.eq_of_getLsbD_eq <;> intro j hj <;> rw [BitVec.getLsbD_and, bit, bit] <;>
    interval_cases j <;> simp

theorem jp (nnn : Addr) : Statement (.jp nnn) := formatA_masked _ _
theorem call (nnn : Addr) : Statement (.call nnn) := formatA_masked _ _
theorem ret : Statement (.ret) := rfl
theorem jpV0 (nnn : Addr) : Statement (.jpV0 nnn) := formatA_masked _ _
theorem seImm (x : Nibble) (nn : Byte) : Statement (.seImm x nn) := (formatRI_masked _ _ _).1
theorem sneImm (x : Nibble) (nn : Byte) : Statement (.sneImm x nn) := (formatRI_masked _ _ _).1
theorem seReg (x : Nibble) (y : Nibble) : Statement (.seReg x y) := (formatRR_masked _ _ _ _).1
theorem sneReg (x : Nibble) (y : Nibble) : Statement (.sneReg x y) := (formatRR_masked _ _ _ _).1
theorem ldImm (x : Nibble) (nn : Byte) : Statement (.ldImm x nn) := (formatRI_masked _ _ _).1
theorem addImm (x : Nibble) (nn : Byte) : Statement (.addImm x nn) := (formatRI_masked _ _ _).1
theorem ldReg (x : Nibble) (y : Nibble) : Statement (.ldReg x y) := (formatRR_masked _ _ _ _).1
theorem orReg (x : Nibble) (y : Nibble) : Statement (.orReg x y) := (formatRR_masked _ _ _ _).1
theorem andReg (x : Nibble) (y : Nibble) : Statement (.andReg x y) := (formatRR_masked _ _ _ _).1
theorem xorReg (x : Nibble) (y : Nibble) : Statement (.xorReg x y) := (formatRR_masked _ _ _ _).1
theorem addReg (x : Nibble) (y : Nibble) : Statement (.addReg x y) := (formatRR_masked _ _ _ _).1
theorem subReg (x : Nibble) (y : Nibble) : Statement (.subReg x y) := (formatRR_masked _ _ _ _).1
theorem shr (x : Nibble) (y : Nibble) : Statement (.shr x y) := (formatRR_masked _ _ _ _).1
theorem subn (x : Nibble) (y : Nibble) : Statement (.subn x y) := (formatRR_masked _ _ _ _).1
theorem shl (x : Nibble) (y : Nibble) : Statement (.shl x y) := (formatRR_masked _ _ _ _).1
theorem rnd (x : Nibble) (nn : Byte) : Statement (.rnd x nn) := (formatRI_masked _ _ _).1
theorem ldI (nnn : Addr) : Statement (.ldI nnn) := formatA_masked _ _
theorem addI (x : Nibble) : Statement (.addI x) := (formatRI_masked _ _ _).2
theorem ldF (x : Nibble) : Statement (.ldF x) := (formatRI_masked _ _ _).2
theorem ldB (x : Nibble) : Statement (.ldB x) := (formatRI_masked _ _ _).2
theorem stRegs (x : Nibble) : Statement (.stRegs x) := (formatRI_masked _ _ _).2
theorem ldRegs (x : Nibble) : Statement (.ldRegs x) := (formatRI_masked _ _ _).2
theorem cls : Statement (.cls) := rfl
theorem drw (x : Nibble) (y : Nibble) (n : Nibble) : Statement (.drw x y n) := (formatRR_masked _ _ _ _).2
theorem skp (x : Nibble) : Statement (.skp x) := (formatRI_masked _ _ _).2
theorem sknp (x : Nibble) : Statement (.sknp x) := (formatRI_masked _ _ _).2
theorem ldKey (x : Nibble) : Statement (.ldKey x) := (formatRI_masked _ _ _).2
theorem setDt (x : Nibble) : Statement (.setDt x) := (formatRI_masked _ _ _).2
theorem setSt (x : Nibble) : Statement (.setSt x) := (formatRI_masked _ _ _).2
theorem getDt (x : Nibble) : Statement (.getDt x) := (formatRI_masked _ _ _).2

end Sys2Proof.Laws.TableRow
end

