-- ==== Sys2Proof/Laws/Step.lean ====
section
/-!
SUPPORT. What a step can do, said once (40_step.md R90): the inversions of `step` into its four next states and its three
kinds of error, and what the machine is about to do, which the keys, the timers and the fetch determine.
-/

namespace Sys2Proof.Machine

variable {s t : State}

/-- The machine is in exactly one of five situations (R90, R186). -/
theorem State.situation (s : State) : (∃ x, s.kw = .wait x) ∨ (∃ x k, s.kw = .ready x k) ∨
    (s.kw = .run ∧ 0xFFE < s.pc.toNat) ∨ (∃ w, s.meetsInvalid w) ∨ ∃ i, s.executes i := by
  cases hk : s.kw with
  | wait x => exact .inl ⟨x, rfl⟩
  | ready x k => exact .inr (.inl ⟨x, k, rfl⟩)
  | run =>
    by_cases hp : 0xFFE < s.pc.toNat
    · exact .inr (.inr (.inl ⟨rfl, hp⟩))
    · cases hd : decode (s.mem.getWord s.pc.toNat) with
      | error e => exact .inr (.inr (.inr (.inl ⟨_, hk, by omega, rfl, e, hd⟩)))
      | ok i => exact .inr (.inr (.inr (.inr ⟨i, hk, by omega, hd⟩)))

/-- A suspended step (R95). -/
theorem step_wait {x : Nibble} (h : s.kw = .wait x) : step s = .next s := by simp [step, h]

/-- A resuming step (R96). -/
theorem step_ready {x k : Nibble} (h : s.kw = .ready x k) : step s = .next (s.resume x k) := by simp [step, h]

/-- A fetch beyond memory (R57, R91). -/
theorem step_outside (h : s.kw = .run) (hp : 0xFFE < s.pc.toNat) :
    step s = .fault (.outOfBoundsAccess (max s.pc.toNat 0x1000)) := by
  simp [step, h, State.fetch_error s hp, raise]

/-- An Invalid word, by the policy (R94). -/
theorem step_invalid {w : Word} (h : s.meetsInvalid w) : step s = s.invalidWord w := by
  obtain ⟨hk, hp, rfl, e, he⟩ := h
  simp [step, hk, State.fetch_ok s hp, he]

/-- An instruction (R90, R93). -/
theorem step_exec {i : Instr} (h : s.executes i) : step s = exec i s.advance := by
  obtain ⟨hk, hp, hd⟩ := h
  simp [step, hk, State.fetch_ok s hp, hd]

/-- Everything a step that goes on can do. -/
theorem step_next_cases (h : step s = .next t) : ((∃ x, s.kw = .wait x) ∧ t = s) ∨
    (∃ x k, s.kw = .ready x k ∧ t = s.resume x k) ∨
    (∃ w, s.meetsInvalid w ∧ s.policy = .skip ∧ t = s.advance) ∨
    ∃ i, s.executes i ∧ exec i s.advance = .next t := by
  rcases s.situation with ⟨x, hk⟩ | ⟨x, k, hk⟩ | ⟨hk, hp⟩ | ⟨w, hw⟩ | ⟨i, hi⟩
  · rw [step_wait hk] at h; cases h; exact .inl ⟨⟨x, hk⟩, rfl⟩
  · rw [step_ready hk] at h; cases h; exact .inr (.inl ⟨x, k, hk, rfl⟩)
  · rw [step_outside hk hp] at h; cases h
  · rw [step_invalid hw, State.invalidWord] at h
    split at h
    · cases h
    · cases h; exact .inr (.inr (.inl ⟨w, hw, ‹_›, rfl⟩))
  · rw [step_exec hi] at h; exact .inr (.inr (.inr ⟨i, hi, h⟩))

/-- Everything a step that fails can have met. -/
theorem step_fault_cases {e : Fault} (h : step s = .fault e) :
    (s.kw = .run ∧ 0xFFE < s.pc.toNat ∧ e = .outOfBoundsAccess (max s.pc.toNat 0x1000)) ∨
    (∃ w, s.meetsInvalid w ∧ s.policy = .halt ∧ e = .invalidOpcode w s.pc) ∨
    ∃ i, s.executes i ∧ exec i s.advance = .fault e := by
  rcases s.situation with ⟨x, hk⟩ | ⟨x, k, hk⟩ | ⟨hk, hp⟩ | ⟨w, hw⟩ | ⟨i, hi⟩
  · rw [step_wait hk] at h; cases h
  · rw [step_ready hk] at h; cases h
  · rw [step_outside hk hp] at h; cases h; exact .inl ⟨hk, hp, rfl⟩
  · rw [step_invalid hw, State.invalidWord] at h
    split at h
    · cases h; exact .inr (.inl ⟨w, hw, ‹_›, rfl⟩)
    · cases h
  · rw [step_exec hi] at h; exact .inr (.inr ⟨i, hi, h⟩)

/-- The report of a step that meets an Invalid word (R94, R182). -/
theorem State.invalidReport_invalid {w : Word} (h : s.meetsInvalid w) :
    s.invalidReport = some (.invalidOpcode w s.pc) := by
  obtain ⟨hk, hp, rfl, e, he⟩ := h
  simp [State.invalidReport, hk, State.fetch_ok s hp, he]

/-- A step that executes an instruction reports no Invalid word. -/
theorem State.invalidReport_executes {i : Instr} (h : s.executes i) : s.invalidReport = none := by
  obtain ⟨hk, hp, hd⟩ := h
  simp [State.invalidReport, hk, State.fetch_ok s hp, hd]

/-- A suspended or resuming step reports no Invalid word (R186). -/
theorem State.invalidReport_suspended (h : s.kw ≠ .run) : s.invalidReport = none := by
  simp only [State.invalidReport]
  split
  · rename_i hk _; exact absurd hk h
  · rfl

/-- The host's view of a failing step: the error, and the state as it was (R92). -/
theorem State.stepCall_fault {e : Fault} (h : step s = .fault e) : s.stepCall = (s, .error e) := by
  simp [State.stepCall, h]

/-- Two states of the same KW, PC and memory are about to do the same. -/
theorem State.executes_congr {i : Instr} (hk : t.kw = s.kw) (hp : t.pc = s.pc) (hm : t.mem = s.mem)
    (h : s.executes i) : t.executes i := by
  simpa only [State.executes, hk, hp, hm] using h

theorem State.meetsInvalid_congr {w : Word} (hk : t.kw = s.kw) (hp : t.pc = s.pc) (hm : t.mem = s.mem)
    (h : s.meetsInvalid w) : t.meetsInvalid w := by
  simpa only [State.meetsInvalid, hk, hp, hm] using h

/-- The word placed by `withFetchWord` is what the very next step runs, from any state (log 9). -/
theorem step_withFetchWord (s : State) (nbits w : Nat) {i : Instr} (h : decode (tableWord nbits w) = .ok i) :
    step (s.withFetchWord nbits w) = exec i (s.withFetchWord nbits w).advance := by
  apply step_exec
  refine ⟨rfl, ?_, ?_⟩
  · simp only [State.withFetchWord, State.placeWord, State.setMem_pc, State.setKw_pc, State.setPc_pc]
    split
    · decide
    · omega
  · simp only [State.withFetchWord, State.placeWord, State.setMem_pc, State.setKw_pc, State.setPc_pc, State.setMem_mem,
      Memory.getWord_setWord, h]

end Sys2Proof.Machine
end

