-- ==== Sys2Proof/Tests/Slice0.lean ====
section
/-!
SUPPORT. Tests. Expected values come from the spec: the patterns and examples of 30_encoding.md and the vectors of
95_test_vectors.md (V-A2 and so on; L1-n are its transcriptions of the source's own examples). Each is about one step,
or one operation of the host, on the state after reset with the named changes. At the end, for every statement of
Certificates/Slice0/Obligations.lean that has hypotheses, a witness that meets them, at the boundary values where its
clauses meet.
-/

namespace Sys2Proof.Tests

open Sys2Proof Sys2Proof.Machine

-- ==== Helpers ====

/-- The state after reset with the word `w` at 0x200, where PC stands. -/
def atWord (w : Nat) : State := State.reset.withFetchWord 16 w

/-- The state `s` with PC at `a` and the word `w` there. -/
def wordAt (s : State) (a w : Nat) : State :=
  (s.setPc (BitVec.ofNat 16 a)).setMem (s.mem.setWord a (BitVec.ofNat 16 w))

/-- The state after reset with PC at `a` and the word `w` there. -/
def placed (a w : Nat) : State := wordAt State.reset a w

/-- `s` with registers set, in order. -/
def withRegs (s : State) (l : List (Nibble × Byte)) : State := l.foldl (fun t p => t.setV p.1 p.2) s

/-- `s` with bytes stored from `a` up. -/
def withBytes (s : State) (a : Nat) (l : List Byte) : State := s.setMem (s.mem.setBytes a l)

/-- The step answers a next state, and it satisfies `p`. -/
def goesTo (s : State) (p : State → Bool) : Bool :=
  match step s with
  | .next t => p t
  | _ => false

/-- The step raises `e`. -/
def raises (s : State) (e : Fault) : Bool :=
  match step s with
  | .fault d => d == e
  | _ => false

/-- Registers hold the listed values. -/
def hasRegs (l : List (Nibble × Byte)) (t : State) : Bool := l.all fun p => t.getV p.1 == p.2

/-- The pixels (column, row) that are on. -/
def pixelsOn (t : State) : List (Nat × Nat) :=
  (List.range 32).flatMap fun y => (List.range 64).filterMap fun x => if t.disp.pixel y x then some (x, y) else none

-- ==== Decoding: every constructor, by a word written out from R71 to R74 ====

theorem test_decode_control_flow :
    decode 0b0001001000110100 = .ok (.jp 0x234) ∧ decode 0b0010010000000000 = .ok (.call 0x400) ∧
    decode 0b0000000011101110 = .ok .ret ∧ decode 0b1011001100000000 = .ok (.jpV0 0x300) := by decide

theorem test_decode_skips :
    decode 0b0011001100010000 = .ok (.seImm 3 0x10) ∧ decode 0b0100001100010001 = .ok (.sneImm 3 0x11) ∧
    decode 0b0101000000010000 = .ok (.seReg 0 1) ∧ decode 0b1001000100100000 = .ok (.sneReg 1 2) := by decide

theorem test_decode_constants :
    decode 0b0110000010101011 = .ok (.ldImm 0 0xAB) ∧ decode 0b0111000000000001 = .ok (.addImm 0 0x01) ∧
    decode 0b1100000100001111 = .ok (.rnd 1 0x0F) := by decide

theorem test_decode_arithmetic :
    decode 0b1000000000010000 = .ok (.ldReg 0 1) ∧ decode 0b1000001000110001 = .ok (.orReg 2 3) ∧
    decode 0b1000001000110010 = .ok (.andReg 2 3) ∧ decode 0b1000001000110011 = .ok (.xorReg 2 3) ∧
    decode 0b1000001000110100 = .ok (.addReg 2 3) ∧ decode 0b1000001000110101 = .ok (.subReg 2 3) ∧
    decode 0b1000111100010110 = .ok (.shr 0xF 1) ∧ decode 0b1000001000110111 = .ok (.subn 2 3) ∧
    decode 0b1000000000011110 = .ok (.shl 0 1) := by decide

theorem test_decode_index_memory :
    decode 0b1010111111111111 = .ok (.ldI 0xFFF) ∧ decode 0b1111000100011110 = .ok (.addI 1) ∧
    decode 0b1111001000101001 = .ok (.ldF 2) ∧ decode 0b1111001100110011 = .ok (.ldB 3) ∧
    decode 0b1111111101010101 = .ok (.stRegs 0xF) ∧ decode 0b1111001001100101 = .ok (.ldRegs 2) := by decide

theorem test_decode_display :
    decode 0b0000000011100000 = .ok .cls ∧ decode 0b1101000000010101 = .ok (.drw 0 1 5) := by decide

theorem test_decode_keypad :
    decode 0b1110010110011110 = .ok (.skp 5) ∧ decode 0b1110010110100001 = .ok (.sknp 5) ∧
    decode 0b1111010100001010 = .ok (.ldKey 5) := by decide

theorem test_decode_timers :
    decode 0b1111000000010101 = .ok (.setDt 0) ∧ decode 0b1111000100011000 = .ok (.setSt 1) ∧
    decode 0b1111001100000111 = .ok (.getDt 3) := by decide

/-- R53: the byte at the lower address is the more significant one. -/
theorem test_decode_bytes_big_endian : decodeBytes [0x6A, 0x01, 0x12] = .ok (.ldImm 0xA 0x01, [0x12]) := by decide

theorem test_decode_truncated : decodeBytes [0x6A] = .error .truncated := by decide

/-- spec/opcode_table.json numbers bit 0 as the least significant bit of the word. -/
theorem test_table_word : decodeTableWord 16 0xF265 = some (.ldRegs 2) ∧ decodeTableWord 16 0x0000 = none := by decide

-- ==== Well-formedness: an ill-formed word for each check, which the check and the decoder refuse (R77) ====

theorem test_wf_no_machine_call : wellFormedWord 0x0123 = false ∧ decode 0x0123 = .error .noMachineCall := by decide

theorem test_wf_skip_low_nibble :
    wellFormedWord 0x5011 = false ∧ decode 0x5011 = .error .skipLowNibble ∧
    wellFormedWord 0x9018 = false ∧ decode 0x9018 = .error .skipLowNibble := by decide

theorem test_wf_arithmetic_sub_op : wellFormedWord 0x8008 = false ∧ decode 0x8008 = .error .arithmeticSubOp := by decide

theorem test_wf_keypad_sub_op : wellFormedWord 0xE09F = false ∧ decode 0xE09F = .error .keypadSubOp := by decide

theorem test_wf_misc_sub_op : wellFormedWord 0xFFFF = false ∧ decode 0xFFFF = .error .miscSubOp := by decide

theorem test_wf_accepts : wellFormedWord 0x00E0 = true ∧ wellFormedWord 0x8F1E = true ∧ (Instr.drw 0 1 5).wf = true := by
  decide

-- ==== The step (section 2.1 of 95_test_vectors.md) ====

theorem test_step_at_the_top : goesTo (placed 0xFFE 0x6A01) (fun t => hasRegs [(0xA, 1)] t && t.pc == 0x1000) = true := by
  decide

theorem test_step_beyond_the_top :
    raises (State.reset.setPc 0xFFF) (.outOfBoundsAccess 0x1000) = true ∧
    raises (State.reset.setPc 0x1000) (.outOfBoundsAccess 0x1000) = true := by decide

theorem test_step_skips_an_invalid_word :
    goesTo ({ atWord 0x0123 with policy := .skip }) (fun t => t.pc == 0x202) = true ∧
    ({ atWord 0x0123 with policy := .skip } : State).invalidReport = some (.invalidOpcode 0x0123 0x200) := by decide

theorem test_step_halts_on_an_invalid_word : raises (atWord 0x0123) (.invalidOpcode 0x0123 0x200) = true := by decide

theorem test_step_odd_address : goesTo (placed 0x201 0x6107) (fun t => hasRegs [(1, 7)] t && t.pc == 0x203) = true := by
  decide

/-- From reset with nothing placed the first word is 0000, an Invalid one (log 9). -/
theorem test_step_from_reset : raises State.reset (.invalidOpcode 0 0x200) = true := by decide

-- ==== Control flow (2.2) ====

theorem test_jp_odd : goesTo (atWord 0x1233) (fun t => t.pc == 0x233) = true := by decide

theorem test_call : goesTo (atWord 0x2400) (fun t => t.pc == 0x400 && t.stack == [0x202]) = true := by decide

theorem test_call_overflow :
    goesTo ((atWord 0x2400).setStack (List.replicate 15 0x300)) (fun t => t.depth == 16) = true ∧
    raises ((atWord 0x2400).setStack (List.replicate 16 0x300)) (.stackOverflow 0x200) = true := by decide

theorem test_ret : goesTo ((placed 0x400 0x00EE).setStack [0x202]) (fun t => t.pc == 0x202 && t.depth == 0) = true := by
  decide

theorem test_ret_underflow : raises (placed 0x400 0x00EE) (.stackUnderflow 0x400) = true := by decide

theorem test_jp_v0_not_masked : goesTo (withRegs (atWord 0xBFFF) [(0, 0xFF)]) (fun t => t.pc == 0x10FE) = true := by decide

theorem test_jp_v0_reads_v0 :
    goesTo (withRegs (atWord 0xB300) [(0, 0x00), (3, 0x05)]) (fun t => t.pc == 0x300) = true := by decide

-- ==== Skips (2.3) ====

theorem test_se_imm :
    goesTo (withRegs (atWord 0x3310) [(3, 0x10)]) (fun t => t.pc == 0x204) = true ∧
    goesTo (withRegs (atWord 0x3311) [(3, 0x10)]) (fun t => t.pc == 0x202) = true := by decide

theorem test_sne_imm :
    goesTo (withRegs (atWord 0x4310) [(3, 0x10)]) (fun t => t.pc == 0x202) = true ∧
    goesTo (withRegs (atWord 0x4311) [(3, 0x10)]) (fun t => t.pc == 0x204) = true := by decide

theorem test_se_reg :
    goesTo (withRegs (atWord 0x5010) [(0, 5), (1, 5)]) (fun t => t.pc == 0x204) = true ∧
    goesTo (withRegs (atWord 0x5010) [(0, 5), (1, 6)]) (fun t => t.pc == 0x202) = true := by decide

theorem test_sne_reg :
    goesTo (withRegs (atWord 0x9010) [(0, 1), (1, 2)]) (fun t => t.pc == 0x204) = true ∧
    goesTo (atWord 0x9550) (fun t => t.pc == 0x202) = true := by decide

theorem test_skip_past_the_top : goesTo (placed 0xFFE 0x3000) (fun t => t.pc == 0x1002) = true := by decide

-- ==== Arithmetic (2.4) ====

theorem test_ld_imm : goesTo (atWord 0x60AB) (hasRegs [(0, 0xAB)]) = true := by decide

theorem test_add_imm_no_flag :
    goesTo (withRegs (atWord 0x7001) [(0, 0xFF), (0xF, 0x55)]) (hasRegs [(0, 0x00), (0xF, 0x55)]) = true := by decide

theorem test_add_imm_of_vf : goesTo (withRegs (atWord 0x7F01) [(0xF, 0xFF)]) (hasRegs [(0xF, 0x00)]) = true := by decide

theorem test_ld_reg : goesTo (withRegs (atWord 0x8010) [(1, 0x2A)]) (hasRegs [(0, 0x2A), (1, 0x2A)]) = true := by decide

theorem test_or :
    goesTo (withRegs (atWord 0x8011) [(0, 0xF0), (1, 0x0F), (0xF, 0x77)]) (hasRegs [(0, 0xFF), (0xF, 0x77)]) = true := by
  decide

theorem test_and :
    goesTo (withRegs (atWord 0x8012) [(0, 0xF0), (1, 0x3C), (0xF, 0x77)]) (hasRegs [(0, 0x30), (0xF, 0x77)]) = true := by
  decide

theorem test_xor :
    goesTo (withRegs (atWord 0x8013) [(0, 0xF0), (1, 0x3C), (0xF, 0x77)]) (hasRegs [(0, 0xCC), (0xF, 0x77)]) = true := by
  decide

theorem test_add_carry :
    goesTo (withRegs (atWord 0x8014) [(0, 0x80), (1, 0x80)]) (hasRegs [(0, 0x00), (0xF, 0x01)]) = true ∧
    goesTo (withRegs (atWord 0x8014) [(0, 0x7F), (1, 0x01)]) (hasRegs [(0, 0x80), (0xF, 0x00)]) = true := by decide

theorem test_add_flag_is_last :
    goesTo (withRegs (atWord 0x8F14) [(0xF, 0xFF), (1, 0x01)]) (hasRegs [(0xF, 0x01)]) = true ∧
    goesTo (withRegs (atWord 0x80F4) [(0, 0x10), (0xF, 0x05)]) (hasRegs [(0, 0x15), (0xF, 0x00)]) = true := by decide

theorem test_sub :
    goesTo (withRegs (atWord 0x8235) [(2, 0x03), (3, 0x05)]) (hasRegs [(2, 0xFE), (0xF, 0x00)]) = true ∧
    goesTo (withRegs (atWord 0x8235) [(2, 0x05), (3, 0x05)]) (hasRegs [(2, 0x00), (0xF, 0x01)]) = true := by decide

theorem test_sub_into_vf : goesTo (withRegs (atWord 0x8F15) [(0xF, 0x10), (1, 0x20)]) (hasRegs [(0xF, 0x00)]) = true := by
  decide

theorem test_subn :
    goesTo (withRegs (atWord 0x8017) [(0, 0x03), (1, 0x05)]) (hasRegs [(0, 0x02), (0xF, 0x01)]) = true ∧
    goesTo (withRegs (atWord 0x8017) [(0, 0x05), (1, 0x03)]) (hasRegs [(0, 0xFE), (0xF, 0x00)]) = true := by decide

theorem test_shr_ignores_vy :
    goesTo (withRegs (atWord 0x8016) [(0, 0x04), (1, 0xFF)]) (hasRegs [(0, 0x02), (0xF, 0x00), (1, 0xFF)]) = true := by
  decide

theorem test_shr_of_vf : goesTo (withRegs (atWord 0x8F06) [(0xF, 0x03)]) (hasRegs [(0xF, 0x01)]) = true := by decide

theorem test_shl_ignores_vy :
    goesTo (withRegs (atWord 0x801E) [(0, 0x7F), (1, 0x01)]) (hasRegs [(0, 0xFE), (0xF, 0x00)]) = true := by decide

theorem test_shl_carries_out : goesTo (withRegs (atWord 0x800E) [(0, 0x80)]) (hasRegs [(0, 0x00), (0xF, 0x01)]) = true := by
  decide

/-- V-A28 and V-A29: the effect of CXNN for a given draw. -/
theorem test_rnd_masks_the_draw :
    (rndWith 0xFF 0 0xAA State.reset).getV 0 = 0xAA ∧ (rndWith 0x5C 0 0x0F State.reset).getV 0 = 0x0C := by decide

/-- V-A30: one draw is consumed. -/
theorem test_rnd_consumes_one_draw : goesTo (atWord 0xC000) (fun t => t.draws == 1) = true := by decide

-- ==== Index and memory (2.5) ====

theorem test_ld_i : goesTo (atWord 0xAFFF) (fun t => t.i == 0x0FFF) = true := by decide

theorem test_add_i :
    goesTo (withRegs ((atWord 0xF01E).setI 0x0FFF) [(0, 0x01)]) (fun t => t.i == 0x1000 && hasRegs [(0xF, 0)] t) = true ∧
    goesTo (withRegs ((atWord 0xF01E).setI 0xFFFF) [(0, 0x02)]) (fun t => t.i == 0x0001) = true := by decide

theorem test_ld_f_low_nibble : goesTo (withRegs (atWord 0xF029) [(0, 0x1A)]) (fun t => t.i == 0x0032) = true := by decide

theorem test_ld_b :
    goesTo (withRegs ((atWord 0xF033).setI 0x300) [(0, 128)])
      (fun t => [t.mem.get 0x300, t.mem.get 0x301, t.mem.get 0x302] == [1, 2, 8]) = true := by decide

theorem test_ld_b_at_the_top :
    goesTo (withRegs ((atWord 0xF033).setI 0xFFD) [(0, 1)]) (fun t => t.mem.get 0xFFF == 1) = true ∧
    raises ((atWord 0xF033).setI 0xFFE) (.outOfBoundsAccess 0x1000) = true := by decide

theorem test_st_regs_at_the_top :
    goesTo (withRegs ((atWord 0xFF55).setI 0xFF0) [(0, 9), (0xF, 0x0F)])
      (fun t => t.mem.get 0xFF0 == 9 && t.mem.get 0xFFF == 0x0F && t.i == 0xFF0) = true ∧
    raises ((atWord 0xFF55).setI 0xFF1) (.outOfBoundsAccess 0x1000) = true := by decide

theorem test_st_regs_over_the_font :
    goesTo (withRegs (atWord 0xF055) [(0, 0xFF)]) (fun t => t.mem.get 0 == 0xFF) = true ∧
    raises ((atWord 0xF055).setI 0x1005) (.outOfBoundsAccess 0x1005) = true := by decide

theorem test_ld_regs :
    goesTo (withBytes ((atWord 0xF265).setI 0x300) 0x300 [2, 5, 4])
      (fun t => hasRegs [(0, 2), (1, 5), (2, 4), (3, 0)] t && t.i == 0x300) = true := by decide

theorem test_ld_regs_into_vf :
    goesTo (withBytes ((atWord 0xFF65).setI 0x300) 0x30F [0xAB]) (hasRegs [(0xF, 0xAB)]) = true ∧
    raises ((atWord 0xFF65).setI 0xFF1) (.outOfBoundsAccess 0x1000) = true := by decide

-- ==== Display (2.6) ====

/-- V-D1: glyph 0 at (0, 0), fourteen pixels. -/
theorem test_drw_glyph :
    goesTo (atWord 0xD015) (fun t => (pixelsOn t).length == 14 && t.disp.pixel 0 3 && !t.disp.pixel 1 1 &&
      hasRegs [(0xF, 0)] t) = true := by decide

/-- V-D8 and V-D3: the sprite's bytes wrap from 0xFFF to 0x000, its columns from 63 to 0. -/
theorem test_drw_wraps :
    goesTo (withBytes (withBytes ((atWord 0xD012).setI 0xFFF) 0xFFF [0x80]) 0 [0xF0])
      (fun t => pixelsOn t == [(0, 0), (0, 1), (1, 1), (2, 1), (3, 1)]) = true ∧
    goesTo (withRegs (withBytes ((atWord 0xD011).setI 0x300) 0x300 [0xFF]) [(0, 62)])
      (fun t => t.disp.pixel 0 63 && t.disp.pixel 0 0 && t.disp.pixel 0 5 && !t.disp.pixel 0 6) = true := by decide

/-- V-D10. -/
theorem test_cls :
    goesTo (withRegs ((atWord 0x00E0).setDisp (Vector.replicate 32 (Vector.replicate 64 true))) [(0xF, 7)])
      (fun t => pixelsOn t == [] && hasRegs [(0xF, 7)] t) = true := by decide

-- ==== Keypad (2.7) ====

theorem test_skp :
    goesTo (withRegs ((placed 0x202 0xE59E).setKeyState 7 true) [(5, 0x17)]) (fun t => t.pc == 0x206) = true ∧
    goesTo (withRegs (placed 0x202 0xE59E) [(5, 7)]) (fun t => t.pc == 0x204) = true := by decide

theorem test_sknp :
    goesTo (withRegs (placed 0x202 0xE5A1) [(5, 7)]) (fun t => t.pc == 0x206) = true ∧
    goesTo (withRegs ((placed 0x202 0xE5A1).setKeyState 7 true) [(5, 7)]) (fun t => t.pc == 0x204) = true := by decide

theorem test_ld_key_suspends :
    goesTo ((atWord 0xFA0A).setKeyState 3 true) (fun t => t.pc == 0x200 && t.kw == .wait 0xA) = true := by decide

/-- V-Y5, V-Y6 and V-Y7: a held key does not count, a release then a press does, and the first press wins. -/
theorem test_set_key_transitions :
    (((State.reset.setKw (.wait 0xA)).setKeyState 3 true).setKey 3 true).kw = .wait 0xA ∧
    ((((State.reset.setKw (.wait 0xA)).setKeyState 3 true).setKey 3 false).setKey 3 true).kw = .ready 0xA 3 ∧
    (((State.reset.setKw (.wait 0)).setKey 2 true).setKey 9 true).kw = .ready 0 2 := by decide

/-- The resuming step of V-Y6. -/
theorem test_resume :
    goesTo ((atWord 0xFA0A).setKw (.ready 0xA 3)) (fun t => t.pc == 0x202 && t.kw == .run && hasRegs [(0xA, 3)] t) = true := by
  decide

-- ==== Timers and the host interface (2.7, section 1) ====

theorem test_set_dt : goesTo (withRegs (atWord 0xF015) [(0, 0x3C)]) (fun t => t.dt == 0x3C) = true := by decide

theorem test_get_dt :
    goesTo ((atWord 0xF307).setDt 0x3C) (fun t => hasRegs [(3, 0x3C)] t && t.dt == 0x3C) = true := by decide

theorem test_set_st :
    goesTo (withRegs (atWord 0xF118) [(1, 2)]) (fun t => t.st == 2 && t.soundActive && !t.tickTimers.tickTimers.soundActive)
      = true := by decide

/-- L1-7 and V-T5. -/
theorem test_tick :
    ((State.reset.setDt 5).setSt 1).tickTimers.dt = 4 ∧ ((State.reset.setDt 5).setSt 1).tickTimers.st = 0 ∧
    State.reset.tickTimers.dt = 0 ∧ State.reset.tickTimers.st = 0 := by decide

/-- L1-9. -/
theorem test_load_rom :
    (List.range 3).map (fun k => (perform (.loadRom [0x12, 0x34, 0x56]) State.reset).1.mem.get (0x200 + k)) =
      [0x12, 0x34, 0x56] := by decide

/-- V-Y9. -/
theorem test_reset_ends_a_wait : (perform .reset (State.reset.setKw (.wait 0))).1 = State.reset := by decide

-- ==== Witnesses: the hypotheses of each statement, met together ====

theorem witness_encode_of_decode : decode 0x8F1E = .ok (.shl 0xF 1) ∧ decode 0x8F16 = .ok (.shr 0xF 1) := by decide

theorem witness_step_runs_the_decoded_instruction :
    (placed 0xFFE 0x6A01).kw = .run ∧ (placed 0xFFE 0x6A01).pc.toNat ≤ 0xFFE ∧
    decode ((placed 0xFFE 0x6A01).mem.get (placed 0xFFE 0x6A01).pc.toNat ++
      (placed 0xFFE 0x6A01).mem.get ((placed 0xFFE 0x6A01).pc.toNat + 1)) = .ok (.ldImm 0xA 1) := by decide

/-- The lowest PC whose fetch raises, and the next one. -/
theorem witness_fetch_beyond_memory :
    (State.reset.setPc 0xFFF).kw = .run ∧ 0xFFE < (State.reset.setPc 0xFFF).pc.toNat ∧
    (State.reset.setPc 0x1000).kw = .run ∧ 0xFFE < (State.reset.setPc 0x1000).pc.toNat := by decide

/-- An Invalid word, under each policy. -/
theorem witness_invalid_word :
    ((atWord 0x0123).meetsInvalid 0x0123 ∧ (atWord 0x0123).policy = .halt) ∧
    (({ atWord 0x0123 with policy := .skip } : State).meetsInvalid 0x0123 ∧
      ({ atWord 0x0123 with policy := .skip } : State).policy = .skip) :=
  ⟨⟨⟨by decide, by decide, by decide, .noMachineCall, by decide⟩, rfl⟩,
    ⟨⟨by decide, by decide, by decide, .noMachineCall, by decide⟩, rfl⟩⟩

theorem witness_suspended_step : (State.reset.setKw (.wait 3)).kw = .wait 3 := by decide

theorem witness_resuming_step : (State.reset.setKw (.ready 0xF 7)).kw = .ready 0xF 7 := by decide

/-- A step that returns an error and leaves the state, and one that returns an error and goes on. -/
theorem witness_failed_step :
    (placed 0x400 0x00EE).stepCall = (placed 0x400 0x00EE, .error (.stackUnderflow 0x400)) ∧
    ({ atWord 0x0123 with policy := .skip } : State).stepCall =
      ({ atWord 0x0123 with policy := .skip, pc := 0x202 }, .error (.invalidOpcode 0x0123 0x200)) := by decide

/-- Each of the six conditions under which a step faults. -/
theorem witness_step_faults :
    (State.reset.setPc 0xFFF).kw = .run ∧ 0xFFE < (State.reset.setPc 0xFFF).pc.toNat ∧
    (atWord 0x0123).meetsInvalid 0x0123 ∧
    ((atWord 0x2400).setStack (List.replicate 16 0x300)).executes (.call 0x400) ∧
    ((atWord 0x2400).setStack (List.replicate 16 0x300)).depth = 16 ∧
    (atWord 0x00EE).executes .ret ∧ (atWord 0x00EE).depth = 0 ∧
    ((atWord 0xF033).setI 0xFFE).executes (.ldB 0) ∧ 0xFFF < ((atWord 0xF033).setI 0xFFE).i.toNat + 2 ∧
    ((atWord 0xF155).setI 0xFFF).executes (.stRegs 1) ∧ ((atWord 0xF165).setI 0xFFF).executes (.ldRegs 1) ∧
    0xFFF < ((atWord 0xF165).setI 0xFFF).i.toNat + (1 : Nibble).toNat :=
  ⟨by decide, by decide, ⟨by decide, by decide, by decide, .noMachineCall, by decide⟩,
    ⟨by decide, by decide, by decide⟩, by decide, ⟨by decide, by decide, by decide⟩, by decide,
    ⟨by decide, by decide, by decide⟩, by decide, ⟨by decide, by decide, by decide⟩,
    ⟨by decide, by decide, by decide⟩, by decide⟩

/-- An instruction that the machine is about to execute, and that goes to a next state: one for each clause. -/
theorem witness_pc_after_each_instruction :
    (atWord 0x1234).executes (.jp 0x234) ∧ goesTo (atWord 0x1234) (fun _ => true) = true ∧
    (atWord 0xBFFF).executes (.jpV0 0xFFF) ∧ goesTo (atWord 0xBFFF) (fun _ => true) = true ∧
    ((atWord 0x00EE).setStack [0x1000]).executes .ret ∧
    goesTo ((atWord 0x00EE).setStack [0x1000]) (fun _ => true) = true ∧
    (atWord 0xFF0A).executes (.ldKey 0xF) ∧ goesTo (atWord 0xFF0A) (fun _ => true) = true ∧
    (atWord 0x3000).executes (.seImm 0 0) ∧ (atWord 0x4000).executes (.sneImm 0 0) ∧
    (atWord 0x5010).executes (.seReg 0 1) ∧ (atWord 0x9010).executes (.sneReg 0 1) ∧
    (atWord 0xE09E).executes (.skp 0) ∧ (atWord 0xE0A1).executes (.sknp 0) ∧
    (placed 0xFFE 0x6A01).executes (.ldImm 0xA 1) := by
  simp only [State.executes]; decide

/-- A fatal error, and an operation of the host after it that is neither a reset nor a load. -/
theorem witness_fatal_errors_repeat :
    (placed 0x400 0x00EE).stepCall = (placed 0x400 0x00EE, .error (.stackUnderflow 0x400)) ∧
    (placed 0x400 0x00EE).policy = .halt ∧ (∀ w a, Fault.stackUnderflow 0x400 ≠ .invalidOpcode w a) ∧
    HostOp.setKey 3 true ≠ .reset ∧ (∀ rom, HostOp.setKey 3 true ≠ .loadRom rom) :=
  ⟨by decide, by decide, nofun, by decide, nofun⟩

/-- Each of the three ends of a run. -/
theorem witness_end_of_run :
    State.reset.endOfRun ∧ (placed 0x20A 0x120A).endOfRun ∧ (State.reset.setKw (.wait 0)).endOfRun :=
  ⟨.inl ⟨.invalidOpcode 0 0x200, rfl⟩,
    .inr (.inl ⟨0x20A, ⟨by decide, by decide, by decide⟩, by decide⟩), .inr (.inr ⟨0, by decide⟩)⟩

/-- A jump to 0xFFF from a machine that is not suspended, and a self-loop. -/
theorem witness_jump : State.reset.kw = .run ∧ (0xFFF : Addr) = 0xFFF ∧ (placed 0x20A 0x120A).selfLoop :=
  ⟨by decide, rfl, 0x20A, ⟨by decide, by decide, by decide⟩, by decide⟩

/-- A call with 15 addresses on the stack, at the top of memory, and one with 16. -/
theorem witness_call :
    (((placed 0xFFE 0x2400).setStack (List.replicate 15 0x300)).advance.pc = 0xFFE + 2 ∧
      ((placed 0xFFE 0x2400).setStack (List.replicate 15 0x300)).advance.depth < 16) ∧
    (((atWord 0x2400).setStack (List.replicate 16 0x300)).executes (.call 0x400) ∧
      ((atWord 0x2400).setStack (List.replicate 16 0x300)).depth = 16) := by
  simp only [State.executes]; decide

/-- A word anywhere it can be fetched, PC on it: the invariant holds. -/
theorem placed_inv (a w : Nat) (h : a ≤ 0xFFE) : (placed a w).Inv where
  memCanonical := Memory.setWord_wf _ a _ (by decide) (by omega)
  depthBound := Nat.zero_le 16
  returnBound := nofun
  pcBound := by simp only [placed, wordAt, State.setPc, State.setMem, BitVec.toNat_ofNat]; omega
  waitFetched := fun e => absurd rfl e

/-- A return with an address on the stack, in a state that meets the invariant, and one with none. -/
theorem witness_return :
    ((placed 0x400 0x00EE).setStack [0x1000]).stack = [0x1000] ∧ ((placed 0x400 0x00EE).setStack [0x1000]).Inv ∧
    (placed 0x400 0x00EE).executes .ret ∧ (placed 0x400 0x00EE).depth = 0 :=
  ⟨by decide, ⟨(placed_inv 0x400 0x00EE (by decide)).memCanonical, by decide,
    by simp [State.setStack], by decide, fun e => absurd rfl e⟩,
    ⟨by decide, by decide, by decide⟩, by decide⟩

/-- The lowest target beyond 0xFFE, and the highest. -/
theorem witness_jump_with_offset :
    (State.reset.setV 0 0x01).kw = .run ∧ 0xFFE < (0xFFE : Addr).toNat + ((State.reset.setV 0 0x01).getV 0).toNat ∧
    (State.reset.setV 0 0xFF).kw = .run ∧ 0xFFE < (0xFFF : Addr).toNat + ((State.reset.setV 0 0xFF).getV 0).toNat := by
  decide

/-- L1-2, at depth 15. -/
theorem witness_call_then_return :
    ((wordAt (placed 0x300 0x00EE) 0x200 0x2300).setStack (List.replicate 15 0x300)).executes (.call 0x300) ∧
    ((wordAt (placed 0x300 0x00EE) 0x200 0x2300).setStack (List.replicate 15 0x300)).depth < 16 ∧
    (0x300 : Addr).toNat ≤ 0xFFE ∧
    decode (((wordAt (placed 0x300 0x00EE) 0x200 0x2300).setStack (List.replicate 15 0x300)).mem.getWord
      (0x300 : Addr).toNat) = .ok .ret := by
  simp only [State.executes]; decide

/-- A skip over two different words (V-K10), and one at the top of memory (V-K11). -/
theorem witness_skips_ignore :
    (atWord 0x3000).executes (.seImm 0 0) ∧
    ((atWord 0x3000).mem.setWord 0x202 0xFFFF).get (atWord 0x3000).pc.toNat =
      (atWord 0x3000).mem.get (atWord 0x3000).pc.toNat ∧
    ((atWord 0x3000).mem.setWord 0x202 0xFFFF).get ((atWord 0x3000).pc.toNat + 1) =
      (atWord 0x3000).mem.get ((atWord 0x3000).pc.toNat + 1) ∧
    (placed 0xFFE 0xE09E).executes (.skp 0) := by
  simp only [State.executes]; decide

/-- The condition on X, at both sides. -/
theorem witness_add_constant : (0xE : Nibble) ≠ 0xF ∧ ¬ (0xF : Nibble) ≠ 0xF := by decide

/-- A flag instruction, one whose destination is not VF, and one with no destination. -/
theorem witness_only_flag_instructions :
    exec (.addReg 0 1) State.reset = .next ((State.reset.setV 0 0).setV 0xF 0) ∧
    exec (.ldImm 0xE 7) State.reset = .next (State.reset.setV 0xE 7) ∧ (0xE : Nibble) ≠ 0xF ∧
    exec (.ldI 0x300) State.reset = .next (State.reset.setI 0x300) := ⟨rfl, rfl, by decide, rfl⟩

/-- The last I at which the three digits fit, and the first at which they do not. -/
theorem witness_bcd :
    (State.reset.setI 0xFFD).i.toNat + 2 ≤ 0xFFF ∧ 0xFFF < (State.reset.setI 0xFFE).i.toNat + 2 := by decide

/-- The last I at which sixteen registers fit, and the first at which they do not; with X = 0, the last byte. -/
theorem witness_register_blocks :
    (State.reset.setI 0xFF0).i.toNat + (0xF : Nibble).toNat ≤ 0xFFF ∧
    0xFFF < (State.reset.setI 0xFF1).i.toNat + (0xF : Nibble).toNat ∧
    (State.reset.setI 0xFFF).i.toNat + (0 : Nibble).toNat ≤ 0xFFF ∧
    0xFFF < (State.reset.setI 0x1000).i.toNat + (0 : Nibble).toNat := by decide

theorem witness_store_then_load :
    ∃ t w, exec (.stRegs 0xF) (State.reset.setI 0xFF0) = .next t ∧ t.mem = t.mem ∧ t.i = (State.reset.setI 0xFF0).i ∧
      exec (.ldRegs 0xF) t = .next w ∧ (0xF : Nibble) ≤ 0xF :=
  ⟨_, _, rfl, rfl, rfl, rfl, by decide⟩

/-- P6 in one step: FX55 stores the word that stands next (6255). -/
theorem witness_stored_word :
    (withRegs ((atWord 0xF155).setI 0x202) [(0, 0x62), (1, 0x55)]).executes (.stRegs 1) ∧
    (withRegs ((atWord 0xF155).setI 0x202) [(0, 0x62), (1, 0x55)]).i.toNat + (1 : Nibble).toNat ≤ 0xFFF ∧
    (withRegs ((atWord 0xF155).setI 0x202) [(0, 0x62), (1, 0x55)]).pc.toNat + 2 ≤ 0xFFE ∧ (0 : Nibble) < 1 ∧
    (withRegs ((atWord 0xF155).setI 0x202) [(0, 0x62), (1, 0x55)]).i.toNat + (0 : Nibble).toNat =
      (withRegs ((atWord 0xF155).setI 0x202) [(0, 0x62), (1, 0x55)]).pc.toNat + 2 ∧
    decode ((withRegs ((atWord 0xF155).setI 0x202) [(0, 0x62), (1, 0x55)]).getV 0 ++
      (withRegs ((atWord 0xF155).setI 0x202) [(0, 0x62), (1, 0x55)]).getV (0 + 1)) = .ok (.ldImm 2 0x55) := by
  simp only [State.executes]; decide

/-- The last address and the first beyond it. -/
theorem witness_byte_operations : 4095 < 4096 ∧ 4096 ≤ 4096 ∧ (4094 : Nat) ≠ 4095 := by decide

/-- A memory written twice over in two orders: canonical both times. -/
theorem witness_canonical_memories :
    Memory.wf (Memory.set (Memory.set [] 0x300 1) 0xFFF 2) ∧ Memory.wf (Memory.set (Memory.set [] 0xFFF 2) 0x300 1) ∧
    ∀ a, a < 4096 → Memory.get (Memory.set (Memory.set [] 0x300 1) 0xFFF 2) a =
      Memory.get (Memory.set (Memory.set [] 0xFFF 2) 0x300 1) a :=
  ⟨by decide, by decide, fun a _ => by
    rw [show Memory.set (Memory.set [] 0x300 1) 0xFFF 2 = Memory.set (Memory.set [] 0xFFF 2) 0x300 1 by decide]⟩

/-- V-D1 then V-D2: the first draw hits nothing, and the sprite has a 1 bit. -/
theorem witness_draw_twice :
    ∃ t u, (0 : Nibble) ≠ 0xF ∧ (1 : Nibble) ≠ 0xF ∧ exec (.drw 0 1 5) State.reset = .next t ∧
      exec (.drw 0 1 5) t = .next u ∧ t.getV 0xF = 0 ∧ 0 < (5 : Nibble).toNat ∧
      (State.reset.mem.get ((State.reset.i.toNat + 0) % 4096)).getLsbD 7 = true :=
  ⟨_, _, by decide, by decide, rfl, rfl, by decide, by decide, by decide⟩

/-- The low nibble of 0x17 names key 7 (V-Y4). -/
theorem witness_key_skips : ((State.reset.setV 5 0x17).getV 5).toNat % 16 = (7 : Nibble).toNat := by decide

theorem witness_wait_for_key : (atWord 0xF50A).advance.pc = 0x200 + 2 := by decide

/-- A press during a wait; and, for KW unchanged, no wait, a release, and a held key. -/
theorem witness_set_key :
    ((State.reset.setKw (.wait 0xA)).kw = .wait 0xA ∧ true = true ∧ (State.reset.setKw (.wait 0xA)).getKey 3 = false) ∧
    (∀ x, State.reset.kw ≠ .wait x) ∧ ((State.reset.setKw (.wait 0xA)).setKeyState 3 true).getKey 3 = true :=
  ⟨by decide, nofun, by decide⟩

theorem witness_key_wait_completes : (atWord 0xF50A).executes (.ldKey 5) ∧ (atWord 0xF50A).getKey 7 = false := by
  simp only [State.executes]; decide

/-- A step of an instruction that leaves the timers alone, with both timers active; and one that fails. -/
theorem witness_tick_commutes :
    (∀ x, ¬ (((atWord 0x6A01).setDt 1).setSt 1).executes (.getDt x) ∧
      ¬ (((atWord 0x6A01).setDt 1).setSt 1).executes (.setDt x) ∧
      ¬ (((atWord 0x6A01).setDt 1).setSt 1).executes (.setSt x)) ∧
    goesTo (((atWord 0x6A01).setDt 1).setSt 1) (fun _ => true) = true ∧
    (∀ x, ¬ (atWord 0x00EE).executes (.getDt x) ∧ ¬ (atWord 0x00EE).executes (.setDt x) ∧
      ¬ (atWord 0x00EE).executes (.setSt x)) ∧
    raises (atWord 0x00EE) (.stackUnderflow 0x200) = true := by
  simp only [State.executes]; decide

/-- A step that goes on from a state with ST active, and one that fails. -/
theorem witness_sound_timer :
    exec (.setSt 1) (State.reset.setV 1 9) = .next ((State.reset.setV 1 9).setSt 9) ∧
    goesTo ((atWord 0xF307).setSt 9) (fun _ => true) = true ∧
    raises ((atWord 0x00EE).setSt 9) (.stackUnderflow 0x200) = true := ⟨rfl, by decide, by decide⟩

/-- A step that is no key skip; an operation that is neither reset nor set_key; every key released, and pressed; a wait. -/
theorem witness_key_states :
    (∀ x, ¬ (atWord 0xF50A).executes (.skp x) ∧ ¬ (atWord 0xF50A).executes (.sknp x)) ∧
    goesTo (atWord 0xF50A) (fun _ => true) = true ∧
    (∀ x, ¬ (atWord 0x00EE).executes (.skp x) ∧ ¬ (atWord 0x00EE).executes (.sknp x)) ∧
    raises (atWord 0x00EE) (.stackUnderflow 0x200) = true ∧
    HostOp.tickTimers ≠ .reset ∧ (∀ (k : Nibble) (p : Bool), HostOp.tickTimers ≠ .setKey k p) ∧
    (∀ k, State.reset.getKey k = false) ∧
    (∀ k, ({ State.reset with keys := Vector.replicate 16 true } : State).getKey k = true) ∧
    (State.reset.setKw (.wait 0)).kw = .wait 0 :=
  ⟨by simp only [State.executes]; decide, by decide, by simp only [State.executes]; decide, by decide, by decide, nofun,
    by decide, by decide, by decide⟩

/-- L1-11: the longest ROM that fits and the shortest that does not. -/
theorem witness_load_rom :
    (List.replicate 3584 (0 : Byte)).length ≤ 3584 ∧ 3584 < (List.replicate 3585 (0 : Byte)).length ∧
    3583 < (List.replicate 3584 (0 : Byte)).length := by simp only [List.length_replicate]; omega

/-- An instruction of every kind of target that goes to a next state. -/
theorem witness_instructions_write :
    exec (.ldImm 0 7) State.reset = .next (State.reset.setV 0 7) ∧
    exec (.call 0x300) State.reset = .next ((State.reset.push 0x200).setPc 0x300) ∧
    exec (.setDt 0) State.reset = .next (State.reset.setDt 0) ∧
    exec (.ldKey 0) State.reset = .next ((State.reset.setKw (.wait 0)).setPc 0x1FE) := ⟨rfl, rfl, rfl, rfl⟩

/-- A state that meets the invariant and takes a step; suspended at the last word, too. -/
theorem witness_step_keeps_the_invariant :
    (placed 0xFFE 0x6A01).Inv ∧ goesTo (placed 0xFFE 0x6A01) (fun _ => true) = true ∧
    ((placed 0xFFE 0xF00A).setKw (.wait 0)).Inv :=
  ⟨placed_inv _ _ (by decide), by decide, (placed_inv 0xFFE 0xF00A (by decide)).memCanonical, by decide, nofun, by decide,
    fun _ => by decide⟩

theorem witness_sessions_keep_the_invariant : (placed 0xFFE 0x6A01).Inv ∧ [HostOp.step, .tickTimers, .reset] ≠ [] :=
  ⟨placed_inv _ _ (by decide), by decide⟩

end Sys2Proof.Tests
end

section
/-!
What the machine learns of ST (10_state.md R29): nothing. Setting ST before an instruction or a step commutes with it.
-/

namespace Sys2Proof.Machine

/-- What an instruction or a step answers, its next state changed by `f`; an error stays the error it is. -/
def mapNext (f : State → State) : Result → Result
  | .next t => .next (f t)
  | .fault e => .fault e
  | .refused r => .refused r

@[simp] theorem mapNext_next (f : State → State) (t : State) : mapNext f (.next t) = .next (f t) := rfl
@[simp] theorem mapNext_fault (f : State → State) (e : Fault) : mapNext f (.fault e) = .fault e := rfl

/-- ST after instruction `i` executed from `s` and went on (R29, R172). -/
def stAfter (i : Instr) (s : State) : Byte :=
  match i with
  | .setSt x => s.getV x
  | _ => s.st

section

variable (s : State) (b : Byte)

/-- The skip mechanism passes ST through (R114). -/
theorem skipIf_setSt (c : Bool) : skipIf c (s.setSt b) = (skipIf c s).setSt b := by
  simp only [skipIf_eq]; rfl

/-- RET passes ST through, whether it pops or underflows (R100). -/
theorem execRet_setSt : execRet (s.setSt b) = mapNext (·.setSt b) (execRet s) := by
  simp only [execRet, State.setSt_stack]
  cases s.stack with
  | nil => rfl
  | cons r rest => rfl

/-- NO INSTRUCTION READS ST: with another ST before it, an instruction does the same to everything else and fails alike. -/
theorem exec_setSt (i : Instr) :
    exec i (s.setSt b) = mapNext (·.setSt (stAfter i (s.setSt b))) (exec i s) := by
  cases i with
  | seImm | sneImm | seReg | sneReg | skp | sknp => exact congrArg Host.Outcome.next (skipIf_setSt s b _)
  | call | ldB | stRegs | ldRegs =>
    simp only [exec, execCall, execLdB, execStRegs, execLdRegs, apply_ite (mapNext _)]
    rfl
  | ret => exact execRet_setSt s b
  | _ => rfl

/-- An Invalid word passes ST through, under either policy (R94). -/
theorem State.invalidWord_setSt (w : Word) :
    (s.setSt b).invalidWord w = mapNext (·.setSt b) (s.invalidWord w) := by
  simp only [State.invalidWord, State.setSt_policy]
  cases s.policy with
  | halt => rfl
  | skip => rfl

/-- NO STEP READS ST: with another ST before it, a step does the same to everything else and fails alike. -/
theorem step_setSt : ∃ c, step (s.setSt b) = mapNext (·.setSt c) (step s) := by
  rcases s.situation with ⟨x, hk⟩ | ⟨x, k, hk⟩ | ⟨hk, hp⟩ | ⟨w, hw⟩ | ⟨i, hi⟩
  · exact ⟨b, by rw [step_wait hk, step_wait (s := s.setSt b) hk, mapNext_next]⟩
  · exact ⟨b, by rw [step_ready hk, step_ready (s := s.setSt b) hk]; rfl⟩
  · exact ⟨b, by rw [step_outside hk hp, step_outside (s := s.setSt b) hk hp]; rfl⟩
  · have hw' : (s.setSt b).meetsInvalid w := State.meetsInvalid_congr rfl rfl rfl hw
    exact ⟨b, by rw [step_invalid hw, step_invalid hw', State.invalidWord_setSt]⟩
  · have hi' : (s.setSt b).executes i := State.executes_congr rfl rfl rfl hi
    exact ⟨_, by rw [step_exec hi, step_exec hi']; exact exec_setSt s.advance b i⟩

/-- A tick counts a timer down to 0 and no further (R191, R192). -/
theorem tickTimer_toNat : (tickTimer b).toNat = b.toNat - 1 := by
  by_cases hb : b = 0
  · subst hb; rfl
  · rw [tickTimer, if_neg hb]; bv_omega

/-- `sound_active()` is ST > 0 (R193). -/
theorem State.soundActive_iff : s.soundActive = true ↔ 0 < s.st.toNat := decide_eq_true_iff

end

/-- An instruction that goes on leaves ST at `stAfter`: the case of `exec_setSt` that sets ST to what it is. -/
theorem exec_st {i : Instr} {s t : State} (h : exec i s = .next t) : t.st = stAfter i s := by
  have same : exec i s = mapNext (·.setSt (stAfter i s)) (exec i s) := exec_setSt s s.st i
  rw [h, mapNext_next] at same
  exact congrArg State.st (Host.Outcome.next.inj same)

/-- Settles O51: setting ST before a step commutes with the step, and an instruction leaves ST as `stAfter` says. -/
theorem soundTimerIsNeverRead : Obligations.SoundTimerIsNeverRead := by
  unfold Obligations.SoundTimerIsNeverRead
  refine ⟨fun i s t h => exec_st h, fun s => ⟨tickTimer_toNat s.st, s.soundActive_iff⟩, fun s b => ?_⟩
  obtain ⟨c, hc⟩ := step_setSt s b
  constructor
  · intro t h
    rw [h, mapNext_next] at hc
    exact ⟨c, hc⟩
  · intro e h
    rw [h, mapNext_fault] at hc
    exact hc

end Sys2Proof.Machine
end

section
/-!
The suspended step and the timers (R95): the step stands still on KW = Wait(x), and a tick leaves KW and PC alone.
-/

namespace Sys2Proof.Machine

variable (s : State)

@[simp] theorem State.tickTimers_kw : s.tickTimers.kw = s.kw := rfl
@[simp] theorem State.tickTimers_pc : s.tickTimers.pc = s.pc := rfl
@[simp] theorem State.tickTimers_dt : s.tickTimers.dt = tickTimer s.dt := rfl
@[simp] theorem State.tickTimers_st : s.tickTimers.st = tickTimer s.st := rfl

variable {s}

/-- The host's view of a step that goes on and meets no Invalid word: the next state, and Ok (R90). -/
theorem State.stepCall_next {t : State} (h : step s = .next t) (hr : s.invalidReport = none) :
    s.stepCall = (t, .ok) := by
  simp [State.stepCall, h, hr]

/-- The host's view of a suspended step: Ok, and the state as it was (R95). -/
theorem State.stepCall_wait {x : Nibble} (h : s.kw = .wait x) : s.stepCall = (s, .ok) := by
  have notRun : s.kw ≠ .run := by simp [h]
  exact State.stepCall_next (step_wait h) (State.invalidReport_suspended notRun)

/-- Settles O9: KW alone decides that a step is suspended, and a tick, which counts each timer down, leaves KW as it is. -/
theorem suspendedStepChangesNothing : Obligations.SuspendedStepChangesNothing := by
  unfold Obligations.SuspendedStepChangesNothing
  intro s x h
  have ticked : s.tickTimers.kw = .wait x := s.tickTimers_kw.trans h
  exact ⟨step_wait h, State.stepCall_wait h, ticked, s.tickTimers_pc, tickTimer_toNat s.dt, tickTimer_toNat s.st,
    step_wait ticked⟩

end Sys2Proof.Machine
end

section
/-!
The cleared display (45_display.md R151): a display write touches pixels alone, and CLS is one, of the display with every
pixel off.
-/

namespace Sys2Proof.Machine

/-- A display write touches pixels and nothing else. -/
theorem State.setDisp_keeps (s : State) (g : Grid) : KeepsAllBut (fun p => ∃ y x, p = .pixel y x) s (s.setDisp g) := by
  intro p untouched
  cases p with
  | pixel y x => exact absurd ⟨y, x, rfl⟩ untouched
  | _ => rfl

/-- CLS puts the cleared display in place of the one that stands there (R151). -/
@[simp] theorem exec_cls (s : State) : exec .cls s = .next (s.setDisp Grid.clear) := rfl

/-- Settles O41: the display that CLS writes shows every pixel off, and writing a display touches pixels alone. -/
theorem clearScreenTurnsEveryPixelOff : Obligations.ClearScreenTurnsEveryPixelOff := by
  unfold Obligations.ClearScreenTurnsEveryPixelOff
  have word : decode 0x00E0 = .ok .cls := by decide
  exact ⟨word, fun s => ⟨s.setDisp Grid.clear, exec_cls s, Grid.pixel_clear, s.setDisp_keeps Grid.clear⟩⟩

end Sys2Proof.Machine
end

section
/-!
The tick and the sound query (47_timers.md R191, R193): a tick touches the two timers alone, and sound_active() only reads.
-/

namespace Sys2Proof.Machine

variable (s : State)

/-- A tick touches the two timers and nothing else (R191). -/
theorem State.tickTimers_keeps : KeepsAllBut (oneOf [.dt, .st]) s s.tickTimers := by
  intro p untouched
  cases p with
  | dt | st => exact absurd (by simp [oneOf]) untouched
  | _ => rfl

/-- `sound_active()` answers whether ST > 0 and leaves the state as it is (R193). -/
@[simp] theorem perform_soundActive : perform .soundActive s = (s, .bool s.soundActive) := rfl

/-- Settles O49: a tick is `tickTimer` on DT and on ST, which counts down to 0 and no further, and touches nothing else. -/
theorem tickCountsDown : Obligations.TickCountsDown := by
  unfold Obligations.TickCountsDown
  intro s
  have dtDown : s.tickTimers.dt.toNat = s.dt.toNat - 1 := tickTimer_toNat s.dt
  have stDown : s.tickTimers.st.toNat = s.st.toNat - 1 := tickTimer_toNat s.st
  exact ⟨dtDown, stDown, s.soundActive_iff, s.tickTimers_keeps, perform_soundActive s⟩

end Sys2Proof.Machine
end

section
/-!
The decoder against the encoder (30_encoding.md R71, R72, R75): what each field reads from each format, and that the fields
of a word make it up again.
-/

namespace Sys2Proof

section

variable (op x y n : Nibble) (nn : Byte) (nnn : Addr)

@[simp] theorem formatA_op : (formatA op nnn).op = op := by
  apply BitVec.eq_of_toNat_eq; rw [Word.op_toNat, formatA_toNat]; omega

@[simp] theorem formatA_nnn : (formatA op nnn).nnn = nnn := by
  apply BitVec.eq_of_toNat_eq; rw [Word.nnn_toNat, formatA_toNat]; omega

@[simp] theorem formatRI_op : (formatRI op x nn).op = op := by
  apply BitVec.eq_of_toNat_eq; rw [Word.op_toNat, formatRI_toNat]; omega

@[simp] theorem formatRI_x : (formatRI op x nn).x = x := by
  apply BitVec.eq_of_toNat_eq; rw [Word.x_toNat, formatRI_toNat]; omega

@[simp] theorem formatRI_nn : (formatRI op x nn).nn = nn := by
  apply BitVec.eq_of_toNat_eq; rw [Word.nn_toNat, formatRI_toNat]; omega

@[simp] theorem formatRR_op : (formatRR op x y n).op = op := by
  apply BitVec.eq_of_toNat_eq; rw [Word.op_toNat, formatRR_toNat]; omega

@[simp] theorem formatRR_x : (formatRR op x y n).x = x := by
  apply BitVec.eq_of_toNat_eq; rw [Word.x_toNat, formatRR_toNat]; omega

@[simp] theorem formatRR_y : (formatRR op x y n).y = y := by
  apply BitVec.eq_of_toNat_eq; rw [Word.y_toNat, formatRR_toNat]; omega

@[simp] theorem formatRR_n : (formatRR op x y n).n = n := by
  apply BitVec.eq_of_toNat_eq; rw [Word.n_toNat, formatRR_toNat]; omega

end

/-- The decoder reads every instruction's word back as it (R75): by the group its leading nibble names. -/
theorem decode_encode (i : Instr) : decode (encode i) = .ok i := by
  cases i with
  | ret | cls => rfl
  | jp | call | jpV0 | ldI | seImm | sneImm | ldImm | addImm | rnd | drw => simp [encode, decode]
  | seReg | sneReg => simp [encode, decode, decodeSkipReg]
  | ldReg | orReg | andReg | xorReg | addReg | subReg | shr | subn | shl => simp [encode, decode, decodeArithmetic]
  | skp | sknp => simp [encode, decode, decodeKeypad]
  | addI | ldF | ldB | stRegs | ldRegs | ldKey | setDt | setSt | getDt => simp [encode, decode, decodeMisc]

/-- Every operand's type keeps it inside its field (R21, R71). -/
theorem Instr.wf_eq_true (i : Instr) : i.wf = true := by
  have nibble : ∀ x : Nibble, x.toNat < 16 := fun x => x.isLt
  have byte : ∀ b : Byte, b.toNat < 256 := fun b => b.isLt
  have addr : ∀ a : Addr, a.toNat < 4096 := fun a => a.isLt
  cases i <;> simp [Instr.wf, Instr.operands, nibble, byte, addr]

/-- Settles O2: an operand's type bounds it, and each field of a format reads back what was put there. -/
theorem decodeOfEncodeGivesTheInstruction : Obligations.DecodeOfEncodeGivesTheInstruction := by
  unfold Obligations.DecodeOfEncodeGivesTheInstruction
  exact fun i => ⟨i.wf_eq_true, decode_encode i⟩

section

variable {w : Word}

/-- A word is the format A of its own fields. -/
theorem formatA_of_op {op : Nibble} (hop : w.op.toNat = op.toNat) : formatA op w.nnn = w := by
  apply BitVec.eq_of_toNat_eq
  rw [formatA_toNat, ← hop, Word.op_toNat, Word.nnn_toNat]; omega

/-- A word is the format RI of its own fields. -/
theorem formatRI_of_fields {op : Nibble} {nn : Byte} (hop : w.op.toNat = op.toNat) (hnn : w.nn.toNat = nn.toNat) :
    formatRI op w.x nn = w := by
  apply BitVec.eq_of_toNat_eq
  rw [formatRI_toNat, ← hop, ← hnn, Word.op_toNat, Word.x_toNat, Word.nn_toNat]; omega

/-- A word is the format RR of its own fields. -/
theorem formatRR_of_fields {op n : Nibble} (hop : w.op.toNat = op.toNat) (hn : w.n.toNat = n.toNat) :
    formatRR op w.x w.y n = w := by
  apply BitVec.eq_of_toNat_eq
  rw [formatRR_toNat, ← hop, ← hn, Word.op_toNat, Word.x_toNat, Word.y_toNat, Word.n_toNat]; omega

variable {i : Instr}

theorem encode_decodeGroupZero (h : decodeGroupZero w = .ok i) : encode i = w := by
  unfold decodeGroupZero at h
  split at h
  · cases h; exact .symm ‹_›
  · split at h
    · cases h; exact .symm ‹_›
    · cases h

theorem encode_decodeArithmetic (hop : w.op.toNat = 0x8) (h : decodeArithmetic w = .ok i) : encode i = w := by
  unfold decodeArithmetic at h
  split at h <;> cases h
  all_goals exact formatRR_of_fields hop ‹_›

theorem encode_decodeKeypad (hop : w.op.toNat = 0xE) (h : decodeKeypad w = .ok i) : encode i = w := by
  unfold decodeKeypad at h
  split at h <;> cases h
  all_goals exact formatRI_of_fields hop ‹_›

theorem encode_decodeMisc (hop : w.op.toNat = 0xF) (h : decodeMisc w = .ok i) : encode i = w := by
  unfold decodeMisc at h
  split at h <;> cases h
  all_goals exact formatRI_of_fields hop ‹_›

theorem decodeSkipReg_ok {j : Instr} (h : decodeSkipReg w j = .ok i) : j = i ∧ w.n = 0 := by
  unfold decodeSkipReg at h
  split at h
  · cases h; exact ⟨rfl, ‹_›⟩
  · cases h

/-- A word that decodes is the encoding of what it decodes to. The arms `h_1` to `h_16` are the groups 0 to F of R75. -/
theorem encode_decode (h : decode w = .ok i) : encode i = w := by
  unfold decode at h
  split at h
  case h_1 => exact encode_decodeGroupZero h
  case h_2 | h_3 | h_11 | h_12 => cases h; exact formatA_of_op ‹_›
  case h_4 | h_5 | h_7 | h_8 | h_13 => cases h; exact formatRI_of_fields ‹_› rfl
  case h_6 | h_10 =>
    obtain ⟨rfl, hn⟩ := decodeSkipReg_ok h
    exact formatRR_of_fields ‹_› (congrArg BitVec.toNat hn)
  case h_9 => exact encode_decodeArithmetic ‹_› h
  case h_14 => cases h; exact formatRR_of_fields ‹_› rfl
  case h_15 => exact encode_decodeKeypad ‹_› h
  case h_16 =>
    have hop : w.op.toNat = 0xF := by
      simp only [imp_false] at *
      omega
    exact encode_decodeMisc hop h

end

/-- Settles O3: the fields that the decoder reads are all the bits of the word. -/
theorem encodeOfDecodeGivesTheWord : Obligations.EncodeOfDecodeGivesTheWord := by
  unfold Obligations.EncodeOfDecodeGivesTheWord
  exact fun _ _ h => encode_decode h

/-- Settles O5: the two bytes are the word's halves, so the decoder puts the word together again. -/
theorem instructionBytesReadBack : Obligations.InstructionBytesReadBack := by
  unfold Obligations.InstructionBytesReadBack
  intro i rest
  refine ⟨rfl, fun hi lo bytes => ?_, ?_⟩
  · obtain ⟨rfl, rfl⟩ : (encode i).hiByte = hi ∧ (encode i).loByte = lo := by simpa [encodeBytes] using bytes
    rw [Word.hiByte_toNat, Word.loByte_toNat]; omega
  · simp [encodeBytes, decodeBytes, wordOfBytes_hi_lo, decode_encode]

/-- Settles O1: each word is computed through the decoder. -/
theorem wordsOfTheSpecDecode : Obligations.WordsOfTheSpecDecode := by
  unfold Obligations.WordsOfTheSpecDecode
  decide

end Sys2Proof
end

section
/-!
The Invalid words (30_encoding.md R77): each class by the word's fields, and the class under whose name the decoder refuses.
-/

namespace Sys2Proof

variable (w : Word)

@[simp] theorem isNoMachineCall_iff : isNoMachineCall w = true ↔ w.op.toNat = 0x0 ∧ w ≠ 0x00E0 ∧ w ≠ 0x00EE := by
  simp only [isNoMachineCall, Word.op_toNat, ne_eq, ← BitVec.toNat_inj, Bool.and_eq_true, decide_eq_true_eq, bne_iff_ne,
    BitVec.reduceToNat]
  omega

@[simp] theorem isSkipLowNibble_iff :
    isSkipLowNibble w = true ↔ (w.op.toNat = 0x5 ∨ w.op.toNat = 0x9) ∧ w.n ≠ 0 := by
  simp [isSkipLowNibble, Word.op_toNat, ← BitVec.toNat_inj, Word.n_toNat]

@[simp] theorem isArithmeticSubOp_iff : isArithmeticSubOp w = true ↔
    w.op.toNat = 0x8 ∧ w.n.toNat ∉ [0x0, 0x1, 0x2, 0x3, 0x4, 0x5, 0x6, 0x7, 0xE] := by
  simp [isArithmeticSubOp, Word.op_toNat, Word.n_toNat]
  omega

@[simp] theorem isKeypadSubOp_iff : isKeypadSubOp w = true ↔ w.op.toNat = 0xE ∧ w.nn.toNat ∉ [0x9E, 0xA1] := by
  simp [isKeypadSubOp, Word.op_toNat, Word.nn_toNat]

@[simp] theorem isMiscSubOp_iff : isMiscSubOp w = true ↔
    w.op.toNat = 0xF ∧ w.nn.toNat ∉ [0x07, 0x0A, 0x15, 0x18, 0x1E, 0x29, 0x33, 0x55, 0x65] := by
  simp [isMiscSubOp, Word.op_toNat, Word.nn_toNat]

variable {w} {e : DecodeError}

@[simp] theorem decodeGroupZero_error : decodeGroupZero w = .error e ↔ e = .noMachineCall ∧ w ≠ 0x00E0 ∧ w ≠ 0x00EE := by
  unfold decodeGroupZero
  split
  · simp [*]
  · split
    · simp [*]
    · simp [*, eq_comm (b := e)]

@[simp] theorem decodeSkipReg_error {i : Instr} : decodeSkipReg w i = .error e ↔ e = .skipLowNibble ∧ w.n ≠ 0 := by
  unfold decodeSkipReg
  split
  · simp [*]
  · simp [*, eq_comm (b := e)]

@[simp] theorem decodeArithmetic_error : decodeArithmetic w = .error e ↔
    e = .arithmeticSubOp ∧ w.n.toNat ∉ [0x0, 0x1, 0x2, 0x3, 0x4, 0x5, 0x6, 0x7, 0xE] := by
  unfold decodeArithmetic
  split
  case h_10 =>
    simp only [imp_false] at *
    simp [*, eq_comm (b := e)]
  all_goals simp [*]

@[simp] theorem decodeKeypad_error : decodeKeypad w = .error e ↔ e = .keypadSubOp ∧ w.nn.toNat ∉ [0x9E, 0xA1] := by
  unfold decodeKeypad
  split
  case h_3 =>
    simp only [imp_false] at *
    simp [*, eq_comm (b := e)]
  all_goals simp [*]

@[simp] theorem decodeMisc_error : decodeMisc w = .error e ↔
    e = .miscSubOp ∧ w.nn.toNat ∉ [0x07, 0x0A, 0x15, 0x18, 0x1E, 0x29, 0x33, 0x55, 0x65] := by
  unfold decodeMisc
  split
  case h_10 =>
    simp only [imp_false] at *
    simp [*, eq_comm (b := e)]
  all_goals simp [*]

/-- `w` is in R77's class of the name `e`; a whole word is never truncated. -/
def refusedAs (e : DecodeError) (w : Word) : Bool :=
  match e with
  | .truncated => false
  | .noMachineCall => isNoMachineCall w
  | .skipLowNibble => isSkipLowNibble w
  | .arithmeticSubOp => isArithmeticSubOp w
  | .keypadSubOp => isKeypadSubOp w
  | .miscSubOp => isMiscSubOp w

/-- The decoder refuses a word under a name exactly if the word is in that class (R75, R77). -/
theorem decode_error_iff : decode w = .error e ↔ refusedAs e w = true := by
  unfold decode
  split
  case h_16 =>
    have hop : w.op.toNat = 0xF := by
      simp only [imp_false] at *
      omega
    cases e <;> simp [refusedAs, hop]
  all_goals cases e <;> simp [refusedAs, *]

/-- A word is an instruction exactly if it is in none of the classes. -/
theorem wellFormedWord_eq_false_iff : wellFormedWord w = false ↔ ∃ e, refusedAs e w = true := by
  constructor
  · intro h
    simp only [wellFormedWord, Bool.not_eq_false', Bool.or_eq_true] at h
    obtain (((h | h) | h) | h) | h := h
    exacts [⟨.noMachineCall, h⟩, ⟨.skipLowNibble, h⟩, ⟨.arithmeticSubOp, h⟩, ⟨.keypadSubOp, h⟩, ⟨.miscSubOp, h⟩]
  · rintro ⟨e, h⟩
    cases e with
    | truncated => cases h
    | _ => rw [refusedAs] at h; simp [wellFormedWord, h]

/-- Settles O4: the class of a word, if it has one, is the name under which the decoder refuses it. -/
theorem invalidWordsAreExactlyTheListed : Obligations.InvalidWordsAreExactlyTheListed := by
  unfold Obligations.InvalidWordsAreExactlyTheListed
  intro w
  have anyClass : (∃ e, decode w = .error e) ↔ wellFormedWord w = false := by
    simp only [decode_error_iff, wellFormedWord_eq_false_iff]
  exact ⟨anyClass, decode_error_iff, decode_error_iff, decode_error_iff, decode_error_iff, decode_error_iff⟩

end Sys2Proof
end

section
/-!
What an instruction does, said once (41 to 47): the error that stops it, if one does, and the state it leaves if none
does. PC on entry reads a + 2 (40_step.md R93).
-/

namespace Sys2Proof.Machine

/-- The error of instruction `i` executed from `s` (60_exceptions.md R183..R185): only five instructions have one. -/
def faultOf (i : Instr) (s : State) : Option Fault :=
  match i with
  | .call _ => if 16 ≤ s.depth then some (.stackOverflow s.instrAddr) else none
  | .ret => if s.depth = 0 then some (.stackUnderflow s.instrAddr) else none
  | .ldB _ => if 0xFFF < s.i.toNat + 2 then some (.outOfBoundsAccess (max s.i.toNat 0x1000)) else none
  | .stRegs x | .ldRegs x =>
    if 0xFFF < s.i.toNat + x.toNat then some (.outOfBoundsAccess (max s.i.toNat 0x1000)) else none
  | _ => none

/-- The state that instruction `i` leaves when no error stops it, as named updates of `s`. -/
def effect (i : Instr) (s : State) : State :=
  match i with
  | .jp nnn => s.setPc nnn.toWord
  | .call nnn => (s.push s.pc).setPc nnn.toWord
  | .ret => (s.setStack s.stack.tail).setPc (s.stack.headD s.pc)
  | .jpV0 nnn => s.setPc (s.jumpOffsetTarget nnn)
  | .seImm x nn => s.setPc (if s.getV x = nn then s.pc + 2 else s.pc)
  | .sneImm x nn => s.setPc (if s.getV x = nn then s.pc else s.pc + 2)
  | .seReg x y => s.setPc (if s.getV x = s.getV y then s.pc + 2 else s.pc)
  | .sneReg x y => s.setPc (if s.getV x = s.getV y then s.pc else s.pc + 2)
  | .ldImm x nn => s.setV x nn
  | .addImm x nn => s.setV x (s.getV x + nn)
  | .ldReg x y => s.setV x (s.getV y)
  | .orReg x y => s.setV x (s.getV x ||| s.getV y)
  | .andReg x y => s.setV x (s.getV x &&& s.getV y)
  | .xorReg x y => s.setV x (s.getV x ^^^ s.getV y)
  | .addReg x y => s.setResultFlag x (s.getV x + s.getV y) (carryFlag (s.getV x) (s.getV y))
  | .subReg x y => s.setResultFlag x (s.getV x - s.getV y) (noBorrowFlag (s.getV x) (s.getV y))
  | .shr x _ => s.setResultFlag x (s.getV x >>> 1) (shiftOutRight (s.getV x))
  | .subn x y => s.setResultFlag x (s.getV y - s.getV x) (noBorrowFlag (s.getV y) (s.getV x))
  | .shl x _ => s.setResultFlag x (s.getV x <<< 1) (shiftOutLeft (s.getV x))
  | .rnd x nn => rndWith (Config.drawByte s.draws) x nn s
  | .ldI nnn => s.setI nnn.toWord
  | .addI x => s.setI (s.i + (s.getV x).toWord)
  | .ldF x => s.setI (fontAddress (s.lowNibble x))
  | .ldB x => s.setMem (s.mem.setBytes s.i.toNat (bcdDigits (s.getV x)))
  | .stRegs x => s.setMem (s.mem.setBytes s.i.toNat (s.regBlock x))
  | .ldRegs x => { s with v := loadBlock s.mem s.i.toNat (x.toNat + 1) s.v }
  | .cls => s.setDisp Grid.clear
  | .drw x y n =>
    (s.setDisp (drawSprite s.disp (s.spriteX x) (s.spriteY y) (s.spriteRows n)).1).setFlag
      (drawSprite s.disp (s.spriteX x) (s.spriteY y) (s.spriteRows n)).2
  | .skp x => s.setPc (if s.getKey (s.lowNibble x) then s.pc + 2 else s.pc)
  | .sknp x => s.setPc (if s.getKey (s.lowNibble x) then s.pc else s.pc + 2)
  | .ldKey x => (s.setKw (.wait x)).setPc s.instrAddr
  | .setDt x => s.setDt (s.getV x)
  | .setSt x => s.setSt (s.getV x)
  | .getDt x => s.setV x s.dt

variable {i : Instr} {s t : State}

/-- A register block or three digits that reach beyond 0xFFF stop the instruction, else it goes on (R55). -/
theorem ite_rangeOutside (k : Nat) (r : Result) :
    (if s.rangeOutside k then s.raiseOutside else r) =
      if 0xFFF < s.i.toNat + k then .fault (.outOfBoundsAccess (max s.i.toNat 0x1000)) else r := by
  simp only [State.rangeOutside_iff]; rfl

/-- A guarded error as a guarded answer. -/
theorem elim_guard (c : Prop) [Decidable c] (e : Fault) (r : State) :
    (if c then some e else none).elim (.next r) .fault = if c then (.fault e : Result) else .next r := by
  split <;> rfl

/-- AN INSTRUCTION, as its error or its effect. -/
theorem exec_eq (i : Instr) (s : State) : exec i s = (faultOf i s).elim (.next (effect i s)) .fault := by
  cases i with
  | call => simp only [exec, execCall, faultOf, elim_guard]; rfl
  | ret => cases h : s.stack <;> simp [exec, execRet, faultOf, effect, State.depth, raise, h]
  | ldB | stRegs | ldRegs =>
    simp only [exec, execLdB, execStRegs, execLdRegs, faultOf, ite_rangeOutside, elim_guard]; rfl
  | seImm | sneImm | seReg | sneReg =>
    simp [exec, execSeImm, execSneImm, execSeReg, execSneReg, skipIf_eq, faultOf, effect]
  | skp x | sknp x =>
    simp only [exec, execSkp, execSknp, skipIf_eq]
    cases h : s.getKey (s.lowNibble x) <;> simp [faultOf, effect, h]
  | _ => rfl

/-- An instruction goes on exactly if no error stops it, and then to its effect. -/
theorem exec_eq_next_iff : exec i s = .next t ↔ faultOf i s = none ∧ t = effect i s := by
  rw [exec_eq]
  cases faultOf i s <;> simp [eq_comm]

/-- An instruction that no error stops goes to its effect. -/
theorem exec_next (goesOn : faultOf i s = none) : exec i s = .next (effect i s) :=
  exec_eq_next_iff.mpr ⟨goesOn, rfl⟩

/-- An instruction fails exactly with its error. -/
theorem exec_eq_fault_iff {e : Fault} : exec i s = .fault e ↔ faultOf i s = some e := by
  rw [exec_eq]
  cases faultOf i s <;> simp

/-- No instruction is without a meaning. -/
theorem exec_ne_refused (r : Refusal) : exec i s ≠ .refused r := by
  rw [exec_eq]
  cases faultOf i s <;> simp

@[simp] theorem faultOf_call_eq_none_iff {nnn : Addr} : faultOf (.call nnn) s = none ↔ s.depth < 16 := by
  simp only [faultOf]; split <;> simp <;> omega

@[simp] theorem faultOf_ret_eq_none_iff : faultOf .ret s = none ↔ s.depth ≠ 0 := by
  simp [faultOf]

@[simp] theorem faultOf_ldB_eq_none_iff {x : Nibble} : faultOf (.ldB x) s = none ↔ s.i.toNat + 2 ≤ 0xFFF := by
  simp [faultOf]

@[simp] theorem faultOf_stRegs_eq_none_iff {x : Nibble} :
    faultOf (.stRegs x) s = none ↔ s.i.toNat + x.toNat ≤ 0xFFF := by
  simp [faultOf]

@[simp] theorem faultOf_ldRegs_eq_none_iff {x : Nibble} :
    faultOf (.ldRegs x) s = none ↔ s.i.toNat + x.toNat ≤ 0xFFF := by
  simp [faultOf]

/-- `zext_16` keeps an address's number (R10). -/
theorem toWord_toNat (a : Addr) : a.toWord.toNat = a.toNat := by
  simp only [Addr.toWord]; bv_omega

/-- The target of a jump with offset is the exact sum (R103). -/
theorem effect_jpV0_pc_toNat (nnn : Addr) : (effect (.jpV0 nnn) s).pc.toNat = nnn.toNat + (s.getV 0).toNat :=
  s.jumpOffsetTarget_toNat nnn

end Sys2Proof.Machine
end

section
/-!
What each named update of the state touches, one rule per update, and from them the parts that each instruction may write.
-/

namespace Sys2Proof.Machine

section

variable {A B : Part → Prop} {s t u : State}

/-- What two updates one after the other touch. -/
theorem KeepsAllBut.trans (first : KeepsAllBut A s t) (second : KeepsAllBut B t u) :
    KeepsAllBut (fun p => A p ∨ B p) s u := by
  intro p untouched
  obtain ⟨notA, notB⟩ := not_or.mp untouched
  have h1 := first p notA
  have h2 := second p notB
  cases p <;> exact h2.trans h1

theorem KeepsAllBut.mono (h : KeepsAllBut A s t) (sub : ∀ p, A p → B p) : KeepsAllBut B s t :=
  fun p untouched => h p fun a => untouched (sub p a)

end

section

variable (s : State)

theorem State.setPc_keeps (w : Word) : KeepsAllBut (· = .pc) s (s.setPc w) := by
  intro p untouched
  cases p with
  | pc => exact absurd rfl untouched
  | _ => rfl

theorem State.setI_keeps (w : Word) : KeepsAllBut (· = .index) s (s.setI w) := by
  intro p untouched
  cases p with
  | index => exact absurd rfl untouched
  | _ => rfl

theorem State.setDt_keeps (b : Byte) : KeepsAllBut (· = .dt) s (s.setDt b) := by
  intro p untouched
  cases p with
  | dt => exact absurd rfl untouched
  | _ => rfl

theorem State.setSt_keeps (b : Byte) : KeepsAllBut (· = .st) s (s.setSt b) := by
  intro p untouched
  cases p with
  | st => exact absurd rfl untouched
  | _ => rfl

theorem State.setKw_keeps (k : KeyWait) : KeepsAllBut (· = .kw) s (s.setKw k) := by
  intro p untouched
  cases p with
  | kw => exact absurd rfl untouched
  | _ => rfl

theorem State.setStack_keeps (l : List Word) : KeepsAllBut (· = .stack) s (s.setStack l) := by
  intro p untouched
  cases p with
  | stack => exact absurd rfl untouched
  | _ => rfl

theorem State.nextDraw_keeps : KeepsAllBut (· = .draws) s s.nextDraw := by
  intro p untouched
  cases p with
  | draws => exact absurd rfl untouched
  | _ => rfl

theorem State.setV_keeps (x : Nibble) (b : Byte) : KeepsAllBut (· = .reg x) s (s.setV x b) := by
  intro p untouched
  cases p with
  | reg y =>
    have other : y ≠ x := fun e => untouched (congrArg Part.reg e)
    simp [Part.same, other]
  | _ => rfl

theorem State.setKeyState_keeps (k : Nibble) (b : Bool) : KeepsAllBut (· = .key k) s (s.setKeyState k b) := by
  intro p untouched
  cases p with
  | key j =>
    have other : j ≠ k := fun e => untouched (congrArg Part.key e)
    simp [Part.same, other]
  | _ => rfl

/-- A block of bytes written at `a` touches the bytes it covers (R51). -/
theorem State.setBytes_keeps (a : Nat) (bs : List Byte) :
    KeepsAllBut (fun p => ∃ k, k < bs.length ∧ p = .byte (a + k)) s (s.setMem (s.mem.setBytes a bs)) := by
  intro p untouched
  cases p with
  | byte k =>
    refine Memory.get_setBytes_outside bs s.mem a k ?_
    by_contra inside
    exact untouched ⟨k - a, by omega, by congr 1; omega⟩
  | _ => rfl

/-- A block load touches the first registers (R145). -/
theorem State.loadBlock_keeps (m : Memory) (a : Nat) (x : Nibble) :
    KeepsAllBut (fun p => ∃ y : Nibble, y ≤ x ∧ p = .reg y) s
      { s with v := loadBlock m a (x.toNat + 1) s.v } := by
  intro p untouched
  cases p with
  | reg y =>
    have outside : ¬ y.toNat < x.toNat + 1 := fun inside => untouched ⟨y, by bv_omega, rfl⟩
    simp only [Part.same, loadBlock_getV, if_neg outside]
  | _ => rfl

/-- A result and a flag touch the result's register and VF (R132). -/
theorem State.setResultFlag_keeps (x : Nibble) (r : Byte) (f : Bool) :
    KeepsAllBut (fun p => p = .reg x ∨ p = .reg 0xF) s (s.setResultFlag x r f) :=
  (s.setV_keeps x r).trans (State.setV_keeps _ 0xF _)

end

/-- The effect of an instruction touches the targets of its rule alone, each by the rule of the update that writes it. -/
theorem effect_keeps (i : Instr) (s : State) : KeepsAllBut (writes i s) s (effect i s) := by
  cases i with
  | jp | jpV0 | seImm | sneImm | seReg | sneReg | skp | sknp => exact s.setPc_keeps _
  | call | ret => exact ((s.setStack_keeps _).trans (State.setPc_keeps _ _)).mono fun _ => Or.symm
  | ldImm | addImm | ldReg | orReg | andReg | xorReg | getDt => exact s.setV_keeps _ _
  | addReg | subReg | shr | subn | shl => exact s.setResultFlag_keeps _ _ _
  | rnd => exact (s.setV_keeps _ _).trans (State.nextDraw_keeps _)
  | ldI | addI | ldF => exact s.setI_keeps _
  | ldB x => exact s.setBytes_keeps s.i.toNat (bcdDigits (s.getV x))
  | stRegs x =>
    refine (s.setBytes_keeps _ _).mono ?_
    rintro p ⟨k, inside, rfl⟩
    exact ⟨k, by rw [State.regBlock_length] at inside; omega, rfl⟩
  | ldRegs => exact s.loadBlock_keeps _ _ _
  | cls => exact s.setDisp_keeps _
  | drw => exact ((s.setDisp_keeps _).trans (State.setV_keeps _ 0xF _)).mono fun _ => Or.symm
  | ldKey => exact (s.setKw_keeps _).trans (State.setPc_keeps _ _)
  | setDt => exact s.setDt_keeps _
  | setSt => exact s.setSt_keeps _

/-- The same against a list of parts. -/
theorem effect_keeps_oneOf {i : Instr} {s : State} {l : List Part} (targets : ∀ p, writes i s p → p ∈ l) :
    KeepsAllBut (oneOf l) s (effect i s) :=
  (effect_keeps i s).mono targets

/-- Settles O56: an instruction that goes on leaves its effect, which touches the targets of its rule alone. -/
theorem instructionsWriteOnlyTheirTargets : Obligations.InstructionsWriteOnlyTheirTargets := by
  unfold Obligations.InstructionsWriteOnlyTheirTargets
  intro i s t h
  obtain ⟨-, rfl⟩ := exec_eq_next_iff.mp h
  exact effect_keeps i s

/-- The resuming step touches VX, PC and KW alone (R96). -/
theorem State.resume_keeps (s : State) (x k : Nibble) :
    KeepsAllBut (oneOf [.reg x, .pc, .kw]) s (s.resume x k) := by
  have frame : KeepsAllBut _ s (s.resume x k) :=
    ((s.setV_keeps x (k.setWidth 8)).trans (State.setPc_keeps _ _)).trans (State.setKw_keeps _ .run)
  exact frame.mono (by simp [oneOf, or_assoc])

/-- A part that no instruction writes is spared by every step: the resume and the advance touch parts that some instruction
writes. -/
theorem step_keeps {s t : State} {p : Part} (unwritten : ∀ i s, ¬ writes i s p) (h : step s = .next t) : p.same s t := by
  have notReg : ∀ x, p ≠ .reg x := fun x => unwritten (.ldImm x 0) s
  have notPc : p ≠ .pc := unwritten (.jp 0) s
  have notKw : p ≠ .kw := fun e => unwritten (.ldKey 0) s (.inl e)
  obtain ⟨-, rfl⟩ | ⟨x, k, -, rfl⟩ | ⟨w, -, -, rfl⟩ | ⟨i, -, h⟩ := step_next_cases h
  · cases p <;> rfl
  · exact s.resume_keeps x k p (by simp [oneOf, notReg, notPc, notKw])
  · exact s.setPc_keeps _ p notPc
  · obtain ⟨-, rfl⟩ := exec_eq_next_iff.mp h
    have kept := effect_keeps i s.advance p (unwritten i s.advance)
    have advanced := s.setPc_keeps (s.pc + 2) p notPc
    cases p <;> exact kept.trans advanced

end Sys2Proof.Machine
end

section
/-!
The invariant (`State.Inv`): reset meets it, and every step and every other operation of the host keeps it.
-/

namespace Sys2Proof.Machine

variable {s t : State} {i : Instr}

/-- The construction state meets the invariant, under either policy. -/
theorem State.new_inv (p : Config.InvalidOpcodePolicy) : (State.new p).Inv where
  memCanonical := ⟨.nil, nofun⟩
  depthBound := Nat.zero_le 16
  returnBound := nofun
  pcBound := show (0x200#16).toNat ≤ 0x10FE by decide
  waitFetched := fun suspended => absurd rfl suspended

/-- Settles O57: the empty memory is canonical, the stack is empty, PC is 0x200 and KW is Run. -/
theorem resetMeetsTheInvariant : Obligations.ResetMeetsTheInvariant := by
  unfold Obligations.ResetMeetsTheInvariant
  exact ⟨State.new_inv .halt, State.new_inv⟩

/-- What fetch leaves to the instruction: PC past the word, at most 0x1000 (R91, R93). -/
theorem State.advance_pc_toNat (h : s.pc.toNat ≤ 0xFFE) : s.advance.pc.toNat = s.pc.toNat + 2 := by
  rw [State.advance_pc]; bv_omega

/-- An instruction that goes on writes inside the address space, if at all. -/
theorem effect_mem_wf (canonical : s.mem.wf) (goesOn : faultOf i s = none) : (effect i s).mem.wf := by
  cases i with
  | ldB x =>
    have inside : s.i.toNat + 2 ≤ 0xFFF := by simpa using goesOn
    exact Memory.setBytes_wf _ _ _ canonical (show s.i.toNat + 3 ≤ 4096 by omega)
  | stRegs x =>
    have inside : s.i.toNat + x.toNat ≤ 0xFFF := by simpa using goesOn
    exact Memory.setBytes_wf _ _ _ canonical (by rw [State.regBlock_length]; omega)
  | _ => exact canonical

/-- A call finds room on the stack, and no other instruction deepens it (R102). -/
theorem effect_depth_le (bound : s.depth ≤ 16) (goesOn : faultOf i s = none) : (effect i s).depth ≤ 16 := by
  cases i with
  | call => exact faultOf_call_eq_none_iff.mp goesOn
  | ret => exact (List.tail_sublist _).length_le.trans bound
  | _ => exact bound

/-- An address on the stack is one that was there or the one past a call (R102). -/
theorem effect_stack_le (bound : ∀ r ∈ s.stack, r.toNat ≤ 0x1000) (hpc : s.pc.toNat ≤ 0x1000) :
    ∀ r ∈ (effect i s).stack, r.toNat ≤ 0x1000 := by
  cases i with
  | call => exact List.forall_mem_cons.mpr ⟨hpc, bound⟩
  | ret => exact fun r hr => bound r (List.mem_of_mem_tail hr)
  | _ => exact bound

/-- The highest PC is that of a jump with offset, 0xFFF + 0xFF (R25). -/
theorem effect_pc_le (bound : ∀ r ∈ s.stack, r.toNat ≤ 0x1000) (hpc : s.pc.toNat ≤ 0xFFE) :
    (effect i s.advance).pc.toNat ≤ 0x10FE := by
  have after : (s.pc + 2).toNat = s.pc.toNat + 2 := s.advance_pc_toNat hpc
  cases i with
  | jp nnn | call nnn =>
    have := nnn.isLt
    exact (toWord_toNat nnn).trans_le (by omega)
  | jpV0 nnn =>
    have := nnn.isLt; have := (s.getV 0).isLt
    rw [effect_jpV0_pc_toNat, State.advance_getV]; omega
  | ret =>
    cases hs : s.stack with
    | nil => simp [effect, hs]; omega
    | cons r rest =>
      have := bound r (by simp [hs])
      simp [effect, hs]; omega
  | seImm | sneImm | seReg | sneReg | skp | sknp =>
    simp only [effect, State.setPc_pc, State.advance_pc]
    split <;> bv_omega
  | ldKey => exact (congrArg BitVec.toNat s.advance_instrAddr).trans_le (by omega)
  | _ => exact (after.trans_le (by omega) : (s.pc + 2).toNat ≤ 0x10FE)

/-- Only FX0A suspends the machine, and on itself (R162). -/
theorem effect_pc_le_of_suspended (running : s.kw = .run) (hpc : s.pc.toNat ≤ 0xFFE)
    (suspended : (effect i s.advance).kw ≠ .run) : (effect i s.advance).pc.toNat ≤ 0xFFE := by
  cases i with
  | ldKey => simpa [effect] using hpc
  | _ => exact absurd running suspended

/-- An instruction keeps the invariant: memory, stack, PC and KW one by one. -/
theorem State.Inv.effect (inv : s.Inv) (executes : s.executes i) (goesOn : faultOf i s.advance = none) :
    (effect i s.advance).Inv := by
  obtain ⟨running, hpc, -⟩ := executes
  have after : s.advance.pc.toNat ≤ 0x1000 := by rw [s.advance_pc_toNat hpc]; omega
  exact {
    memCanonical := effect_mem_wf (s := s.advance) inv.memCanonical goesOn
    depthBound := effect_depth_le (s := s.advance) inv.depthBound goesOn
    returnBound := effect_stack_le (s := s.advance) inv.returnBound after
    pcBound := effect_pc_le inv.returnBound hpc
    waitFetched := effect_pc_le_of_suspended running hpc }

/-- Past a word of memory, whether an Invalid one (R94) or the FX0A of a wait (R96), the invariant holds without a wait. -/
theorem State.Inv.advance (inv : s.Inv) (hpc : s.pc.toNat ≤ 0xFFE) (b : Vector Byte 16) :
    ({ s.advance with v := b, kw := .run } : State).Inv where
  memCanonical := inv.memCanonical
  depthBound := inv.depthBound
  returnBound := inv.returnBound
  pcBound := (s.advance_pc_toNat hpc).trans_le (by omega)
  waitFetched := fun suspended => absurd rfl suspended

/-- A step keeps the invariant, in each of the four ways it can go on. -/
theorem State.Inv.step (inv : s.Inv) (h : step s = .next t) : t.Inv := by
  obtain ⟨-, rfl⟩ | ⟨x, k, ready, rfl⟩ | ⟨w, ⟨running, hpc, -⟩, -, rfl⟩ | ⟨i, executes, h⟩ := step_next_cases h
  · exact inv
  · exact inv.advance (inv.waitFetched (by simp [ready])) _
  · have inv := inv.advance hpc s.v
    rwa [← running] at inv
  · obtain ⟨goesOn, rfl⟩ := exec_eq_next_iff.mp h
    exact inv.effect executes goesOn

/-- Settles O58: by the four ways a step can go on, an instruction's by its effect. -/
theorem stepKeepsTheInvariant : Obligations.StepKeepsTheInvariant := by
  unfold Obligations.StepKeepsTheInvariant
  exact fun s t inv h => inv.step h

end Sys2Proof.Machine
end

section
/-!
The operations of the host (60_exceptions.md R197): what each leaves of the state, and what every session keeps.
-/

namespace Sys2Proof.Machine

variable {s t : State}

/-- After a call of step() the machine stands where it stood or where the step goes. -/
theorem State.stepCall_state (s : State) : s.stepCall.1 = s ∨ step s = .next s.stepCall.1 := by
  unfold State.stepCall
  cases step s with
  | next t => cases s.invalidReport <;> exact .inr rfl
  | fault e => exact .inl rfl
  | refused r => exact .inl rfl

/-- Byte k of a block is read back k above where the block was written (R51). -/
theorem Memory.get_setBytes_inside (m : Memory) (a : Nat) {bs : List Byte} {k : Nat} (inside : k < bs.length) :
    (m.setBytes a bs).get (a + k) = bs[k] := by
  simp [Memory.get_setBytes, inside]

/-- A ROM that fits is written from 0x200 up (R212). -/
theorem perform_loadRom_of_le {rom : List Byte} (fits : rom.length ≤ 3584) :
    perform (.loadRom rom) s = (s.setMem (s.mem.setBytes 0x200 rom), .ok) := by
  have room : ¬ 3584 < rom.length := by omega
  simp [perform, State.loadRomCall, State.loadRom, room]

/-- A ROM that does not fit is refused, and nothing is written (R181, R212). -/
theorem perform_loadRom_of_lt {rom : List Byte} (long : 3584 < rom.length) :
    perform (.loadRom rom) s = (s, .error .romTooLarge) := by
  simp [perform, State.loadRomCall, State.loadRom, long, raise]

/-- Settles O53: a block write reads back inside the block and touches nothing outside it. -/
theorem loadRomCopiesTheBytes : Obligations.LoadRomCopiesTheBytes := by
  unfold Obligations.LoadRomCopiesTheBytes
  exact fun s rom =>
    ⟨fun fits => ⟨_, perform_loadRom_of_le fits, fun k => Memory.get_setBytes_inside s.mem 0x200,
      s.setBytes_keeps 0x200 rom⟩, perform_loadRom_of_lt⟩

/-- A key press or release keeps the invariant: KW leaves Run for nothing. -/
theorem State.Inv.setKey (inv : s.Inv) (k : Nibble) (p : Bool) : (s.setKey k p).Inv where
  memCanonical := inv.memCanonical
  depthBound := inv.depthBound
  returnBound := inv.returnBound
  pcBound := inv.pcBound
  waitFetched := fun suspended => inv.waitFetched fun running => suspended (by simp [State.setKey, running, keyWaitAfter])

/-- Every operation of the host keeps the invariant. -/
theorem State.Inv.perform (inv : s.Inv) (op : HostOp) : (perform op s).1.Inv := by
  cases op with
  | loadRom rom =>
    by_cases fits : rom.length ≤ 3584
    · rw [perform_loadRom_of_le fits]
      have canonical : (s.mem.setBytes 0x200 rom).wf := Memory.setBytes_wf rom _ _ inv.memCanonical (by omega)
      exact { inv with memCanonical := canonical }
    · rw [perform_loadRom_of_lt (by omega)]
      exact inv
  | step =>
    rcases s.stepCall_state with same | next
    · exact same.symm ▸ inv
    · exact inv.step next
  | tickTimers => exact { inv with }
  | setKey k p => exact inv.setKey k p
  | isPressed | display | soundActive => exact inv
  | reset => exact { State.new_inv s.policy with }

/-- Settles O59, by induction on the session. -/
theorem sessionsKeepTheInvariant : Obligations.SessionsKeepTheInvariant := by
  unfold Obligations.SessionsKeepTheInvariant
  intro ops
  induction ops with
  | nil => exact fun s inv => inv
  | cons op ops ih => exact fun s inv => ih _ (inv.perform op)

/-- No step writes the policy (log 4). -/
theorem step_policy (h : step s = .next t) : t.policy = s.policy :=
  step_keeps (p := .policy) (fun i s => by cases i <;> simp [writes]) h

/-- No operation writes the policy (log 4). -/
theorem perform_policy (op : HostOp) (s : State) : (perform op s).1.policy = s.policy := by
  cases op with
  | loadRom rom =>
    by_cases fits : rom.length ≤ 3584
    · rw [perform_loadRom_of_le fits]; rfl
    · rw [perform_loadRom_of_lt (by omega)]
  | step =>
    rcases s.stepCall_state with same | next
    · exact congrArg State.policy same
    · exact step_policy next
  | _ => rfl

/-- No session writes the policy. -/
theorem session_policy (ops : List HostOp) : ∀ s : State, (session ops s).policy = s.policy := by
  induction ops with
  | nil => exact fun s => rfl
  | cons op ops ih => exact fun s => (ih _).trans (perform_policy op s)

/-- Settles O55: reset writes every field but the policy, which no session writes, and the generator's position. -/
theorem resetRestoresConstruction : Obligations.ResetRestoresConstruction := by
  unfold Obligations.ResetRestoresConstruction
  exact fun ops s => ⟨rfl, session_policy ops s⟩

end Sys2Proof.Machine
end

section
/-!
The step (40_step.md, 60_exceptions.md section 1): what it raises and when, what a failed one leaves, and what ends a run.
-/

namespace Sys2Proof.Machine

variable {s t : State} {e : Fault}

/-- Settles O6: the two bytes at PC are the word that fetch reads, and the advance is PC + 2. -/
theorem stepRunsTheDecodedInstruction : Obligations.StepRunsTheDecodedInstruction := by
  unfold Obligations.StepRunsTheDecodedInstruction
  exact fun s i running inside decoded => step_exec ⟨running, inside, decoded⟩

/-- Settles O7: the first address above 0xFFF is 0x1000 for a PC of 0xFFF and PC itself above it. -/
theorem fetchBeyondMemoryRaises : Obligations.FetchBeyondMemoryRaises := by
  unfold Obligations.FetchBeyondMemoryRaises
  intro s running outside
  have payload : (if s.pc = 0xFFF#16 then 0x1000 else s.pc.toNat) = max s.pc.toNat 0x1000 := by
    split <;> bv_omega
  have fails := step_outside running outside
  rw [payload]
  exact ⟨fails, State.stepCall_fault fails⟩

/-- An Invalid word under Halt (R94). -/
theorem step_invalid_halt {w : Word} (h : s.meetsInvalid w) (halt : s.policy = .halt) :
    step s = .fault (.invalidOpcode w s.pc) := by
  simp [step_invalid h, State.invalidWord, halt, raise]

/-- An Invalid word under Skip (R94). -/
theorem step_invalid_skip {w : Word} (h : s.meetsInvalid w) (skip : s.policy = .skip) : step s = .next s.advance := by
  simp [step_invalid h, State.invalidWord, skip]

/-- The host's view of an Invalid word under Skip: PC past it, and the report (R94). -/
theorem State.stepCall_invalid_skip {w : Word} (h : s.meetsInvalid w) (skip : s.policy = .skip) :
    s.stepCall = (s.advance, .error (.invalidOpcode w s.pc)) := by
  simp [State.stepCall, step_invalid_skip h skip, State.invalidReport_invalid h]

/-- Settles O8: under Halt the step is a fault and leaves the state, so the next one is the same; under Skip it advances. -/
theorem invalidWordFollowsThePolicy : Obligations.InvalidWordFollowsThePolicy := by
  unfold Obligations.InvalidWordFollowsThePolicy
  intro s w h
  split
  next halt =>
    have fails := step_invalid_halt h halt
    have call := State.stepCall_fault fails
    exact ⟨fails, call, by rw [call, call]⟩
  next skip => exact ⟨step_invalid_skip h skip, State.stepCall_invalid_skip h skip⟩

/-- The key that the resuming step stores, as a number (R96). -/
theorem State.resume_getV_toNat (s : State) (x k : Nibble) : ((s.resume x k).getV x).toNat = k.toNat := by
  have stored : (k.setWidth 8).toNat = k.toNat := by bv_omega
  simp [State.resume, stored]

/-- Settles O10: the resume is a register write, the advance and KW back to Run. -/
theorem resumingStepStoresTheKey : Obligations.ResumingStepStoresTheKey := by
  unfold Obligations.ResumingStepStoresTheKey
  intro s x k ready
  have next := step_ready ready
  have unreported : s.invalidReport = none := State.invalidReport_suspended (by simp [ready])
  exact ⟨s.resume x k, next, State.stepCall_next next unreported, s.resume_getV_toNat x k, rfl, rfl, s.resume_keeps x k⟩

/-- The host's view of an instruction that goes on (R90). -/
theorem State.stepCall_executes {i : Instr} (h : s.executes i) (next : exec i s.advance = .next t) :
    s.stepCall = (t, .ok) :=
  State.stepCall_next ((step_exec h).trans next) (State.invalidReport_executes h)

/-- Everything a call of step() that returns an error can have met. -/
theorem State.stepCall_error_cases (h : s.stepCall = (t, .error e)) : (step s = .fault e ∧ t = s) ∨
    ∃ w, s.meetsInvalid w ∧ s.policy = .skip ∧ e = .invalidOpcode w s.pc ∧ t = s.advance := by
  cases outcome : step s with
  | fault d => rw [State.stepCall_fault outcome] at h; cases h; exact .inl ⟨rfl, rfl⟩
  | refused r => simp [State.stepCall, outcome] at h
  | next u =>
    obtain ⟨⟨x, wait⟩, -⟩ | ⟨x, k, ready, -⟩ | ⟨w, invalid, skip, -⟩ | ⟨i, executes, next⟩ := step_next_cases outcome
    · rw [State.stepCall_wait wait] at h; cases h
    · rw [State.stepCall_next outcome (State.invalidReport_suspended (by simp [ready]))] at h; cases h
    · rw [State.stepCall_invalid_skip invalid skip] at h; cases h; exact .inr ⟨w, invalid, skip, rfl, rfl⟩
    · rw [State.stepCall_executes executes next] at h; cases h

/-- Settles O11: a fault carries no state, and under Skip the report comes with the advance. -/
theorem failedStepLeavesTheStateUnchanged : Obligations.FailedStepLeavesTheStateUnchanged := by
  unfold Obligations.FailedStepLeavesTheStateUnchanged
  intro s t e h
  obtain ⟨-, same⟩ | ⟨w, -, skip, report, passed⟩ := State.stepCall_error_cases h
  · exact .inl same
  · exact .inr ⟨skip, w, report, passed⟩

/-- The five instructions that can fail, each with its condition and its error (R183..R185). -/
theorem faultOf_eq_some_iff {i : Instr} : faultOf i s = some e ↔
    (∃ nnn, i = .call nnn ∧ 16 ≤ s.depth ∧ e = .stackOverflow s.instrAddr) ∨
    (i = .ret ∧ s.depth = 0 ∧ e = .stackUnderflow s.instrAddr) ∨
    (∃ x, i = .ldB x ∧ 0xFFF < s.i.toNat + 2 ∧ e = .outOfBoundsAccess (max s.i.toNat 0x1000)) ∨
    ∃ x, (i = .stRegs x ∨ i = .ldRegs x) ∧ 0xFFF < s.i.toNat + x.toNat ∧
      e = .outOfBoundsAccess (max s.i.toNat 0x1000) := by
  cases i <;> simp [faultOf, eq_comm (b := e)]

/-- The same in a step, where the instruction's address is PC (R93). -/
theorem exec_advance_eq_fault_iff {i : Instr} : exec i s.advance = .fault e ↔
    (∃ nnn, i = .call nnn ∧ 16 ≤ s.depth ∧ e = .stackOverflow s.pc) ∨
    (i = .ret ∧ s.depth = 0 ∧ e = .stackUnderflow s.pc) ∨
    (∃ x, i = .ldB x ∧ 0xFFF < s.i.toNat + 2 ∧ e = .outOfBoundsAccess (max s.i.toNat 0x1000)) ∨
    ∃ x, (i = .stRegs x ∨ i = .ldRegs x) ∧ 0xFFF < s.i.toNat + x.toNat ∧
      e = .outOfBoundsAccess (max s.i.toNat 0x1000) := by
  rw [exec_eq_fault_iff, faultOf_eq_some_iff, State.advance_instrAddr]
  rfl

/-- Settles O12: the three kinds of error a step can meet, an instruction's by `faultOf`. -/
theorem stepFaultsExactlyWhereTheSpecSays : Obligations.StepFaultsExactlyWhereTheSpecSays := by
  unfold Obligations.StepFaultsExactlyWhereTheSpecSays
  intro s e
  constructor
  · intro h
    obtain ⟨running, outside, payload⟩ | ⟨w, invalid, halt, report⟩ | ⟨i, executes, fails⟩ := step_fault_cases h
    · exact ⟨running, .inl ⟨outside, payload⟩⟩
    · exact ⟨invalid.1, .inr (.inl ⟨w, invalid, halt, report⟩)⟩
    · refine ⟨executes.1, .inr (.inr ?_)⟩
      obtain ⟨nnn, rfl, h⟩ | ⟨rfl, h⟩ | ⟨x, rfl, h⟩ | ⟨x, rfl | rfl, h⟩ := exec_advance_eq_fault_iff.mp fails
      · exact .inl ⟨nnn, executes, h⟩
      · exact .inr (.inl ⟨executes, h⟩)
      · exact .inr (.inr (.inl ⟨x, executes, h⟩))
      · exact .inr (.inr (.inr ⟨x, .inl executes, h⟩))
      · exact .inr (.inr (.inr ⟨x, .inr executes, h⟩))
  · rintro ⟨running, ⟨outside, rfl⟩ | ⟨w, invalid, halt, rfl⟩ | ⟨nnn, executes, h⟩ | ⟨executes, h⟩ | ⟨x, executes, h⟩ |
      ⟨x, executes | executes, h⟩⟩
    · exact step_outside running outside
    · exact step_invalid_halt invalid halt
    · exact (step_exec executes).trans (exec_advance_eq_fault_iff.mpr (.inl ⟨nnn, rfl, h⟩))
    · exact (step_exec executes).trans (exec_advance_eq_fault_iff.mpr (.inr (.inl ⟨rfl, h⟩)))
    · exact (step_exec executes).trans (exec_advance_eq_fault_iff.mpr (.inr (.inr (.inl ⟨x, rfl, h⟩))))
    · exact (step_exec executes).trans (exec_advance_eq_fault_iff.mpr (.inr (.inr (.inr ⟨x, .inl rfl, h⟩))))
    · exact (step_exec executes).trans (exec_advance_eq_fault_iff.mpr (.inr (.inr (.inr ⟨x, .inr rfl, h⟩))))

/-- Every situation of the machine has a meaning. -/
theorem step_ne_refused (r : Refusal) : step s ≠ .refused r := by
  rcases s.situation with ⟨x, wait⟩ | ⟨x, k, ready⟩ | ⟨running, outside⟩ | ⟨w, invalid⟩ | ⟨i, executes⟩
  · simp [step_wait wait]
  · simp [step_ready ready]
  · simp [step_outside running outside]
  · cases policy : s.policy with
    | halt => simp [step_invalid_halt invalid policy]
    | skip => simp [step_invalid_skip invalid policy]
  · rw [step_exec executes]
    exact exec_ne_refused r

/-- Settles O13: no situation of the machine, and so no instruction, is refused. -/
theorem noStepIsRefused : Obligations.NoStepIsRefused := by
  unfold Obligations.NoStepIsRefused
  refine fun s r => ⟨step_ne_refused r, ?_⟩
  unfold State.stepCall
  cases outcome : step s with
  | next t => cases s.invalidReport <;> simp
  | fault e => simp
  | refused q => exact absurd outcome (step_ne_refused q)

/-- Settles O14: PC in the effect of each instruction, executed with PC at a + 2. -/
theorem pcAfterEachInstruction : Obligations.PcAfterEachInstruction := by
  unfold Obligations.PcAfterEachInstruction
  intro s t i executes h
  rw [step_exec executes] at h
  obtain ⟨goesOn, rfl⟩ := exec_eq_next_iff.mp h
  have skipped : s.pc + 2 + 2 = s.pc + 4 := BitVec.add_assoc _ _ _
  cases i with
  | jp nnn | call nnn => exact toWord_toNat nnn
  | jpV0 nnn => exact effect_jpV0_pc_toNat nnn
  | ret =>
    have nonempty : s.stack ≠ [] := fun empty => faultOf_ret_eq_none_iff.mp goesOn (congrArg List.length empty)
    obtain ⟨r, rest, stack⟩ := List.exists_cons_of_ne_nil nonempty
    simp [effect, stack]
  | ldKey => exact s.advance_instrAddr
  | seImm | sneImm | seReg | sneReg => simp only [effect, State.setPc_pc, State.advance_pc, State.advance_getV, skipped]
  | skp | sknp =>
    simp only [effect, State.setPc_pc, State.advance_pc, State.advance_getKey, skipped]
    rfl
  | _ => rfl

/-- What stops an instruction depends on the stack, I and PC alone. -/
theorem faultOf_congr {i : Instr} (stack : t.stack = s.stack) (index : t.i = s.i) (pc : t.pc = s.pc) :
    faultOf i t = faultOf i s := by
  apply Option.ext
  simp [faultOf_eq_some_iff, State.depth, State.instrAddr, stack, index, pc]

/-- What stops a step depends on KW, PC, memory, the policy, the stack and I alone (D31). -/
theorem step_fault_congr (kw : t.kw = s.kw) (pc : t.pc = s.pc) (mem : t.mem = s.mem) (policy : t.policy = s.policy)
    (stack : t.stack = s.stack) (index : t.i = s.i) (h : step s = .fault e) : step t = .fault e := by
  obtain ⟨running, outside, rfl⟩ | ⟨w, invalid, halt, rfl⟩ | ⟨i, executes, fails⟩ := step_fault_cases h
  · rw [← pc] at outside ⊢
    exact step_outside (kw.trans running) outside
  · rw [← pc]
    exact step_invalid_halt (State.meetsInvalid_congr kw pc mem invalid) (policy.trans halt)
  · rw [step_exec (State.executes_congr kw pc mem executes), exec_eq_fault_iff,
      faultOf_congr (s := s.advance) (t := t.advance) stack index (congrArg (· + 2) pc)]
    exact exec_eq_fault_iff.mp fails

/-- A step that fails is a step of a machine that is not suspended. -/
theorem kw_of_step_fault (h : step s = .fault e) : s.kw = .run := by
  obtain ⟨running, -⟩ | ⟨w, ⟨running, -⟩, -⟩ | ⟨i, ⟨running, -⟩, -⟩ := step_fault_cases h
  all_goals exact running

/-- Settles O15: the failed step left the state, and no operation but a reset or a load touches what stops a step. -/
theorem fatalErrorsRepeat : Obligations.FatalErrorsRepeat := by
  unfold Obligations.FatalErrorsRepeat
  intro s t e op h fatal notReset notLoad
  obtain ⟨fails, rfl⟩ | ⟨w, -, skip, rfl, -⟩ := State.stepCall_error_cases h
  · have again : step (perform op t).1 = .fault e := by
      cases op with
      | loadRom rom => exact absurd rfl (notLoad rom)
      | reset => exact absurd rfl notReset
      | step => rwa [show perform .step t = (t, .error e) from h]
      | tickTimers => exact step_fault_congr (s := t) rfl rfl rfl rfl rfl rfl fails
      | setKey k p =>
        have kw : (t.setKey k p).kw = t.kw := by simp [State.setKey, kw_of_step_fault fails, keyWaitAfter]
        exact step_fault_congr (s := t) kw rfl rfl rfl rfl rfl fails
      | isPressed | display | soundActive => exact fails
    exact State.stepCall_fault again
  · obtain halt | notInvalid := fatal
    · cases halt.symm.trans skip
    · exact absurd rfl (notInvalid w s.pc)

/-- A jump to its own address leaves the whole state (R98, R101). -/
theorem exec_of_selfLoop {nnn : Addr} (loop : s.pc = nnn.toWord) : exec (.jp nnn) s.advance = .next s := by
  rw [exec_eq_next_iff]
  exact ⟨rfl, by rw [effect, ← loop]; rfl⟩

/-- Settles O16: an error leaves the state, a self-loop jumps to where it stands, and a suspended step does nothing. -/
theorem endOfRunIsFinal : Obligations.EndOfRunIsFinal := by
  unfold Obligations.EndOfRunIsFinal
  rintro s (⟨e, fails⟩ | ⟨nnn, executes, loop⟩ | ⟨x, wait⟩)
  · rw [State.stepCall_fault fails]
  · rw [State.stepCall_executes executes (exec_of_selfLoop loop)]
  · rw [State.stepCall_wait wait]

end Sys2Proof.Machine
end

section
/-!
Control flow and the skips (41_control_flow.md, 42_skip.md).
-/

namespace Sys2Proof.Machine

variable {s : State}

/-- Settles O17: the effect of JP is PC = NNN; 0xFFF is beyond the last word, and a self-loop ends where it began. -/
theorem jumpGoesToItsAddress : Obligations.JumpGoesToItsAddress := by
  unfold Obligations.JumpGoesToItsAddress
  constructor
  · intro nnn s
    refine ⟨_, exec_next rfl, toWord_toNat nnn, effect_keeps_oneOf (by simp [writes]), ?_⟩
    rintro rfl running
    exact step_outside running (by decide : 0xFFE < (Addr.toWord 0xFFF).toNat)
  · rintro s ⟨nnn, executes, loop⟩
    exact (step_exec executes).trans (exec_of_selfLoop loop)

/-- A step whose instruction fails, as the host sees it too (R92). -/
theorem step_and_stepCall_fault {i : Instr} {e : Fault} (executes : s.executes i) (fails : exec i s.advance = .fault e) :
    step s = .fault e ∧ s.stepCall = (s, .error e) :=
  have stops := (step_exec executes).trans fails
  ⟨stops, State.stepCall_fault stops⟩

/-- Settles O18: on either side of depth 16, the effect of CALL or its error. -/
theorem callPushesTheReturnAddress : Obligations.CallPushesTheReturnAddress := by
  unfold Obligations.CallPushesTheReturnAddress
  constructor
  · intro nnn s a hpc room
    refine ⟨_, exec_next (faultOf_call_eq_none_iff.mpr room), ?_, rfl, toWord_toNat nnn,
      effect_keeps_oneOf (by simp [writes])⟩
    simp [effect, hpc]
  · intro nnn s executes full
    exact step_and_stepCall_fault executes (exec_advance_eq_fault_iff.mpr (.inl ⟨nnn, rfl, full.ge, rfl⟩))

/-- Settles O19: on a stack that holds an address, the effect of RET, and on an empty one its error. -/
theorem returnPopsTheStack : Obligations.ReturnPopsTheStack := by
  unfold Obligations.ReturnPopsTheStack
  constructor
  · intro s r rest stack
    have goesOn : faultOf .ret s = none := by simp [State.depth, stack]
    have popped : (effect .ret s).pc = r := by simp [effect, stack]
    refine ⟨_, exec_next goesOn, popped, by simp [effect, stack], effect_keeps_oneOf (by simp [writes]), fun inv => ?_⟩
    exact popped ▸ inv.returnBound r (by simp [stack])
  · intro s executes empty
    exact step_and_stepCall_fault executes (exec_advance_eq_fault_iff.mpr (.inr (.inl ⟨rfl, empty, rfl⟩)))

/-- Settles O20: the target is the exact sum, and the next fetch checks it. -/
theorem jumpWithOffsetAddsV0 : Obligations.JumpWithOffsetAddsV0 := by
  unfold Obligations.JumpWithOffsetAddsV0
  intro nnn s
  refine ⟨_, exec_next rfl, effect_jpV0_pc_toNat nnn, effect_keeps_oneOf (by simp [writes]), fun running outside => ?_⟩
  rw [← effect_jpV0_pc_toNat] at outside ⊢
  exact step_outside running outside

/-- Settles O21: the call pushes PC + 2 and the return pops it, so PC is all that changes. -/
theorem callThenReturnComesBack : Obligations.CallThenReturnComesBack := by
  unfold Obligations.CallThenReturnComesBack
  intro s nnn executes room inside word
  have call : step s = .next (effect (.call nnn) s.advance) :=
    (step_exec executes).trans (exec_next (faultOf_call_eq_none_iff.mpr room))
  have target : (effect (.call nnn) s.advance).pc.toNat = nnn.toNat := toWord_toNat nnn
  have returns : (effect (.call nnn) s.advance).executes .ret :=
    ⟨executes.1, target.trans_le inside, by rw [target]; exact word⟩
  have goesOn : faultOf .ret (effect (.call nnn) s.advance).advance = none := by simp [State.depth, effect]
  exact ⟨_, call, (step_exec returns).trans (exec_next goesOn)⟩

/-- Settles O22: the effect of each skip is the PC that its condition chooses. -/
theorem skipsOnAConstant : Obligations.SkipsOnAConstant := by
  unfold Obligations.SkipsOnAConstant
  exact fun x nn s => ⟨⟨_, exec_next rfl, rfl, effect_keeps_oneOf (by simp [writes])⟩,
    ⟨_, exec_next rfl, rfl, effect_keeps_oneOf (by simp [writes])⟩⟩

/-- Settles O23: as for a constant; a register agrees with itself. -/
theorem skipsOnTwoRegisters : Obligations.SkipsOnTwoRegisters := by
  unfold Obligations.SkipsOnTwoRegisters
  refine fun x y s => ⟨⟨_, exec_next rfl, rfl, ?_, effect_keeps_oneOf (by simp [writes])⟩,
    ⟨_, exec_next rfl, rfl, ?_, effect_keeps_oneOf (by simp [writes])⟩⟩
  all_goals
    rintro rfl
    simp [effect]

/-- Another memory with the same word at PC makes the machine about to do the same. -/
theorem State.executes_setMem {i : Instr} {m : Memory} (executes : s.executes i)
    (hi : m.get s.pc.toNat = s.mem.get s.pc.toNat) (lo : m.get (s.pc.toNat + 1) = s.mem.get (s.pc.toNat + 1)) :
    (s.setMem m).executes i := by
  obtain ⟨running, inside, decoded⟩ := executes
  refine ⟨running, inside, ?_⟩
  rw [Memory.getWord, ← hi, ← lo] at decoded
  exact decoded

/-- Settles O24: a skip's effect is a PC that its condition chooses, and the condition reads no memory. -/
theorem skipsIgnoreTheSkippedWord : Obligations.SkipsIgnoreTheSkippedWord := by
  unfold Obligations.SkipsIgnoreTheSkippedWord
  intro s i m executes hi lo
  have executes' := State.executes_setMem executes hi lo
  have skipped : s.pc + 2 + 2 = s.pc + 4 := BitVec.add_assoc _ _ _
  have either : ∀ w, exec i s.advance = .next (s.advance.setPc w) →
      exec i (s.setMem m).advance = .next ((s.setMem m).advance.setPc w) → (w = s.pc + 2 + 2 ∨ w = s.pc + 2) →
      ∃ t, step s = .next t ∧ step { s with mem := m } = .next { t with mem := m } ∧
        (t.pc = s.pc + 4 ∨ t.pc = s.pc + 2) :=
    fun w next next' target =>
      ⟨_, (step_exec executes).trans next, (step_exec executes').trans next', skipped ▸ target⟩
  cases i with
  | seImm | seReg | skp => exact either _ (exec_next rfl) (exec_next rfl) (ite_eq_or_eq _ _ _)
  | sneImm | sneReg | sknp => exact either _ (exec_next rfl) (exec_next rfl) (ite_eq_or_eq _ _ _).symm
  | _ => trivial

end Sys2Proof.Machine
end

section
/-!
Arithmetic and the flag register (43_arithmetic.md, 10_state.md R23): the results and the flags as numbers.
-/

namespace Sys2Proof.Machine

/-- Settles O25: the value is what VX reads after the write. -/
theorem loadsOfARegister : Obligations.LoadsOfARegister := by
  unfold Obligations.LoadsOfARegister
  exact fun x y nn s =>
    ⟨⟨_, exec_next rfl, by simp [effect], effect_keeps_oneOf (by simp [writes])⟩,
      ⟨_, exec_next rfl, by simp [effect], effect_keeps_oneOf (by simp [writes])⟩⟩

/-- Settles O26: the write of the sum spares VF, which is another register. -/
theorem addConstantSetsNoFlag : Obligations.AddConstantSetsNoFlag := by
  unfold Obligations.AddConstantSetsNoFlag
  refine fun x nn s => ⟨_, exec_next rfl, by simp [effect], fun notVF => ?_, effect_keeps_oneOf (by simp [writes])⟩
  exact (s.setV_getV x 0xF _).trans (if_neg notVF.symm)

/-- Settles O27: bit j of the result is the operation on bit j of the operands. -/
theorem bitwiseOperations : Obligations.BitwiseOperations := by
  unfold Obligations.BitwiseOperations
  refine fun x y s =>
    ⟨⟨_, exec_next rfl, by simp [effect], effect_keeps_oneOf (by simp [writes])⟩,
      ⟨_, exec_next rfl, by simp [effect], effect_keeps_oneOf (by simp [writes])⟩,
      ⟨_, exec_next rfl, by simp [effect], ?_, effect_keeps_oneOf (by simp [writes])⟩⟩
  rintro rfl
  simp [effect]

/-- What the five flag instructions have in common: the result, unless VF is its destination, and the flag, as numbers, and
nothing else (R132, D5). -/
theorem exec_resultFlag {i : Instr} {s : State} {x : Nibble} {r : Byte} {f : Bool} {n m : Nat}
    (next : exec i s = .next (s.setResultFlag x r f)) (result : r.toNat = n) (flag : (if f then 1 else 0) = m) :
    ∃ t, exec i s = .next t ∧ (x ≠ 0xF → (t.getV x).toNat = n) ∧ (t.getV 0xF).toNat = m ∧
      KeepsAllBut (oneOf [.reg x, .reg 0xF]) s t := by
  refine ⟨_, next, fun notVF => ?_, ?_, (s.setResultFlag_keeps x r f).mono (by simp [oneOf])⟩
  · rw [State.setResultFlag_getV, if_neg notVF, if_pos rfl, result]
  · rw [State.setResultFlag_getV, if_pos rfl, ← flag]
    cases f <;> rfl

/-- The bit that a right shift puts out, as a number (R128). -/
theorem shiftOutRight_toNat (a : Byte) : (if shiftOutRight a then 1 else 0) = a.toNat % 2 := by
  simp only [shiftOutRight, BitVec.getLsbD, Nat.testBit_zero, decide_eq_true_eq]
  split <;> omega

/-- The bit that a left shift puts out, as a number (R130). -/
theorem shiftOutLeft_toNat (a : Byte) : (if shiftOutLeft a then 1 else 0) = a.toNat / 128 := by
  have := a.isLt
  simp only [shiftOutLeft, BitVec.getLsbD, Nat.testBit_eq_decide_div_mod_eq, decide_eq_true_eq]
  split <;> omega

/-- A difference modulo 256, as a number (R127). -/
theorem sub_toNat_of_byte (a b : Byte) : (a - b).toNat = (a.toNat + 256 - b.toNat) % 256 := by
  rw [BitVec.toNat_sub]; omega

/-- Settles O28: the sum modulo 256, and the carry of the exact sum. -/
theorem addRegistersSetsCarry : Obligations.AddRegistersSetsCarry := by
  unfold Obligations.AddRegistersSetsCarry
  exact fun x y s => exec_resultFlag (exec_next rfl) (BitVec.toNat_add _ _) (by simp [carryFlag])

/-- Settles O29: the difference modulo 256, and the no-borrow, with either operand as the minuend. -/
theorem subtractionsSetNoBorrow : Obligations.SubtractionsSetNoBorrow := by
  unfold Obligations.SubtractionsSetNoBorrow
  exact fun x y s =>
    ⟨exec_resultFlag (exec_next rfl) (sub_toNat_of_byte _ _) (by simp [noBorrowFlag]),
      exec_resultFlag (exec_next rfl) (sub_toNat_of_byte _ _) (by simp [noBorrowFlag])⟩

/-- Settles O30: half and double of VX, the bit put out, and no use of Y. -/
theorem shiftsSetTheBitShiftedOut : Obligations.ShiftsSetTheBitShiftedOut := by
  unfold Obligations.ShiftsSetTheBitShiftedOut
  intro x y s
  have half : (s.getV x >>> 1).toNat = (s.getV x).toNat / 2 := by
    simp [Nat.shiftRight_eq_div_pow]
  have double : (s.getV x <<< 1).toNat = 2 * (s.getV x).toNat % 256 := by
    simp [Nat.shiftLeft_eq, Nat.mul_comm]
  obtain ⟨t, right, rightResult, rightFlag, rightFrame⟩ :=
    exec_resultFlag (i := .shr x y) (exec_next rfl) half (shiftOutRight_toNat (s.getV x))
  obtain ⟨u, left, leftResult, leftFlag, leftFrame⟩ :=
    exec_resultFlag (i := .shl x y) (exec_next rfl) double (shiftOutLeft_toNat (s.getV x))
  exact ⟨⟨t, right, rightResult, rightFlag, rightFrame, fun _ => right⟩,
    ⟨u, left, leftResult, leftFlag, leftFrame, fun _ => left⟩⟩

/-- Settles O31: the value is the draw AND the mask; a mask of ones is the identity of AND. -/
theorem randomIsTheDrawMasked : Obligations.RandomIsTheDrawMasked := by
  unfold Obligations.RandomIsTheDrawMasked
  intro x nn s
  have value : (effect (.rnd x nn) s).getV x = Config.drawByte s.draws &&& nn := by simp [effect, rndWith]
  have allOnes : (0xFF : Byte) = BitVec.allOnes 8 := rfl
  refine ⟨_, exec_next rfl, ?_, ?_, ?_, rfl, effect_keeps_oneOf (by simp [writes])⟩
  · simp [value]
  · rintro rfl
    rw [value]; exact BitVec.and_zero
  · rintro rfl
    rw [value, allOnes, BitVec.and_allOnes]

/-- The flag that VF holds is 0 or 1 (R23). -/
theorem State.setFlag_getV_F (s : State) (f : Bool) : (s.setFlag f).getV 0xF = 0 ∨ (s.setFlag f).getV 0xF = 1 := by
  rw [State.setFlag_eq, State.setV_getV, if_pos rfl]
  cases f
  · exact .inl rfl
  · exact .inr rfl

/-- Settles O32: the six end in a flag write, and the targets of the others tell which can be VF. -/
theorem onlyFlagInstructionsWriteVF : Obligations.OnlyFlagInstructionsWriteVF := by
  unfold Obligations.OnlyFlagInstructionsWriteVF
  intro i s t h
  obtain ⟨-, rfl⟩ := exec_eq_next_iff.mp h
  have spared : ¬ writes i s (.reg 0xF) → (effect i s).getV 0xF = s.getV 0xF := effect_keeps i s (.reg 0xF)
  cases i with
  | addReg | subReg | shr | subn | shl | drw => exact State.setFlag_getV_F _ _
  | ldImm | addImm | ldReg | orReg | andReg | xorReg | rnd | getDt =>
    exact fun notVF => spared (by simpa [writes] using notVF.symm)
  | ldRegs x =>
    intro notVF
    refine spared ?_
    rintro ⟨y, le, hy⟩
    cases hy
    exact notVF (by bv_omega)
  | _ => exact spared (by simp [writes])

end Sys2Proof.Machine
end

section
/-!
The index register and memory (44_index_memory.md, 20_memory.md): the blocks that are stored and loaded, byte by byte.
-/

namespace Sys2Proof.Machine

/-- Settles O33: each new value of I, as a number. -/
theorem indexRegisterWrites : Obligations.IndexRegisterWrites := by
  unfold Obligations.IndexRegisterWrites
  refine fun nnn x s => ⟨⟨_, exec_next rfl, toWord_toNat nnn, effect_keeps_oneOf (by simp [writes])⟩,
    ⟨_, exec_next rfl, ?_, effect_keeps_oneOf (by simp [writes])⟩,
    ⟨_, exec_next rfl, ?_, effect_keeps_oneOf (by simp [writes])⟩⟩
  · simp [effect, Byte.toWord]
  · simp [effect, fontAddress_toNat, State.lowNibble_toNat]

variable {s t : State} {x y : Nibble}

/-- What FX55 leaves at I + y (R144). -/
theorem effect_stRegs_get (le : y ≤ x) : (effect (.stRegs x) s).mem.get (s.i.toNat + y.toNat) = s.getV y := by
  have inside : y.toNat < (s.regBlock x).length := by rw [State.regBlock_length]; bv_omega
  exact (Memory.get_setBytes_inside s.mem s.i.toNat inside).trans (s.regBlock_get x y inside)

/-- What FX65 leaves in VY (R145). -/
theorem effect_ldRegs_getV (le : y ≤ x) : (effect (.ldRegs x) s).getV y = s.mem.get (s.i.toNat + y.toNat) :=
  (loadBlock_getV s s.mem s.i.toNat (x.toNat + 1) y).trans (if_pos (by bv_omega))

/-- Settles O34: the three digits at their addresses, or the error of the range. -/
theorem bcdStoresThreeDigits : Obligations.BcdStoresThreeDigits := by
  unfold Obligations.BcdStoresThreeDigits
  intro x s
  have digit : ∀ k (inside : k < 3), (effect (.ldB x) s).mem.get (s.i.toNat + k) = (bcdDigits (s.getV x))[k] :=
    fun k inside => Memory.get_setBytes_inside s.mem s.i.toNat inside
  constructor
  · intro fits
    refine ⟨_, exec_next (faultOf_ldB_eq_none_iff.mpr fits), ?_, ?_, ?_, effect_keeps (.ldB x) s⟩
    · exact (congrArg BitVec.toNat (digit 0 (by decide))).trans (by simp [bcdDigits])
    · exact (congrArg BitVec.toNat (digit 1 (by decide))).trans (by simp [bcdDigits])
    · exact (congrArg BitVec.toNat (digit 2 (by decide))).trans (by simp [bcdDigits])
  · intro outside
    exact exec_eq_fault_iff.mpr (if_pos outside)

/-- Settles O35: byte by byte of the block, or the error of the range. -/
theorem storeRegistersWritesTheBlock : Obligations.StoreRegistersWritesTheBlock := by
  unfold Obligations.StoreRegistersWritesTheBlock
  exact fun x s =>
    ⟨fun fits => ⟨_, exec_next (faultOf_stRegs_eq_none_iff.mpr fits), fun y => effect_stRegs_get,
      effect_keeps (.stRegs x) s⟩,
      fun outside => exec_eq_fault_iff.mpr (if_pos outside)⟩

/-- Settles O36: register by register of the block, or the error of the range. -/
theorem loadRegistersReadsTheBlock : Obligations.LoadRegistersReadsTheBlock := by
  unfold Obligations.LoadRegistersReadsTheBlock
  exact fun x s =>
    ⟨fun fits => ⟨_, exec_next (faultOf_ldRegs_eq_none_iff.mpr fits), fun y => effect_ldRegs_getV,
      effect_keeps (.ldRegs x) s⟩,
      fun outside => exec_eq_fault_iff.mpr (if_pos outside)⟩

/-- Settles O37: VY is loaded from where it was stored. -/
theorem storeThenLoadRestoresTheRegisters : Obligations.StoreThenLoadRestoresTheRegisters := by
  unfold Obligations.StoreThenLoadRestoresTheRegisters
  intro x s t u w stored mem index loaded y le
  obtain ⟨-, rfl⟩ := exec_eq_next_iff.mp stored
  obtain ⟨-, rfl⟩ := exec_eq_next_iff.mp loaded
  rw [effect_ldRegs_getV le, mem, index, effect_stRegs_get le]

/-- Settles O38: the two bytes of the stored word are where the advanced PC fetches them. -/
theorem storedWordIsFetchedNext : Obligations.StoredWordIsFetchedNext := by
  unfold Obligations.StoredWordIsFetchedNext
  intro s x y i executes fits inside lt place decoded
  have goesOn : faultOf (.stRegs x) s.advance = none := faultOf_stRegs_eq_none_iff.mpr fits
  have next : step s = .next (effect (.stRegs x) s.advance) := (step_exec executes).trans (exec_next goesOn)
  have pc : (effect (.stRegs x) s.advance).pc.toNat = s.i.toNat + y.toNat :=
    (s.advance_pc_toNat executes.2.1).trans place.symm
  have hi : (effect (.stRegs x) s.advance).mem.get (s.i.toNat + y.toNat) = s.getV y :=
    effect_stRegs_get (s := s.advance) (by bv_omega)
  have lo : (effect (.stRegs x) s.advance).mem.get (s.i.toNat + y.toNat + 1) = s.getV (y + 1) := by
    have index : s.i.toNat + y.toNat + 1 = s.i.toNat + (y + 1).toNat := by bv_omega
    rw [index]
    exact effect_stRegs_get (s := s.advance) (by bv_omega)
  refine ⟨_, next, executes.1, by omega, ?_⟩
  rw [pc, Memory.getWord, hi, lo, decoded]

section

variable {m n : Memory} {a : Nat} {b : Byte}

theorem Memory.readByte_of_lt (inside : a < 4096) : m.readByte a = .ok (m.get a) := if_pos inside

theorem Memory.readByte_of_le (outside : 4096 ≤ a) : m.readByte a = .error (.outOfBoundsAccess a) :=
  if_neg (Nat.not_lt.mpr outside)

theorem Memory.writeByte_of_lt (inside : a < 4096) : m.writeByte a b = .ok (m.set a b) := if_pos inside

theorem Memory.writeByte_of_le (outside : 4096 ≤ a) : m.writeByte a b = .error (.outOfBoundsAccess a) :=
  if_neg (Nat.not_lt.mpr outside)

/-- Settles O39: inside the range the two are `get` and `set`, outside it they fail. -/
theorem byteOperationsCheckTheRange : Obligations.ByteOperationsCheckTheRange := by
  unfold Obligations.ByteOperationsCheckTheRange
  refine fun m a b => ⟨fun inside => ⟨Memory.readByte_of_lt inside, _, Memory.writeByte_of_lt inside, ?_, ?_⟩,
    fun outside => ⟨Memory.readByte_of_le outside, Memory.writeByte_of_le outside⟩⟩
  · rw [Memory.readByte_of_lt inside, Memory.get_set, if_pos rfl]
  · intro k other
    simp [Memory.readByte, other]

/-- A listed pair is what its address reads as, where no address is listed twice. -/
theorem Memory.get_of_mem (rising : m.Pairwise fun c d => c.1 < d.1) {c : Host.Cell} (listed : c ∈ m) :
    m.get c.1 = c.2 := by
  induction m with
  | nil => cases listed
  | cons d m ih =>
    obtain ⟨first, rest⟩ := List.pairwise_cons.mp rising
    rcases List.mem_cons.mp listed with rfl | later
    · exact if_pos rfl
    · exact (if_neg (first c later).ne').trans (ih rest later)

/-- An address that does not read as unlisted is listed with what it reads. -/
theorem Memory.mem_of_get_ne (changed : m.get a ≠ initialByte a) : (a, m.get a) ∈ m := by
  induction m with
  | nil => exact absurd rfl changed
  | cons d m ih =>
    obtain ⟨k, b⟩ := d
    by_cases here : a = k
    · simp [Memory.get, here]
    · simp only [Memory.get, if_neg here] at changed ⊢
      exact List.mem_cons_of_mem _ (ih changed)

/-- What a canonical memory lists, by its reads: the addresses that do not read as unlisted. -/
theorem Memory.mem_iff_of_wf (canonical : m.wf) (c : Host.Cell) :
    c ∈ m ↔ c.1 < 4096 ∧ m.get c.1 = c.2 ∧ c.2 ≠ initialByte c.1 := by
  obtain ⟨rising, minimal⟩ := canonical
  constructor
  · exact fun listed => ⟨(minimal c listed).1, Memory.get_of_mem rising listed, (minimal c listed).2⟩
  · rintro ⟨-, read, changed⟩
    have listed := Memory.mem_of_get_ne (read ▸ changed)
    rwa [read] at listed

/-- Settles O40: the reads determine what is listed, and the rising order determines the list. -/
theorem canonicalMemoriesAreDeterminedByReads : Obligations.CanonicalMemoriesAreDeterminedByReads := by
  unfold Obligations.CanonicalMemoriesAreDeterminedByReads
  intro m n hm hn alike
  have sameCells : ∀ c, c ∈ m ↔ c ∈ n := fun c => by
    rw [Memory.mem_iff_of_wf hm, Memory.mem_iff_of_wf hn]
    exact and_congr_right fun inside => by rw [alike c.1 inside]
  exact hm.1.eq_of_mem_iff hn.1 sameCells

end

end Sys2Proof.Machine
end

section
/-!
DRW (45_display.md R152..R155): the display after it as the old one XOR the sprite, and the collision flag.
-/

namespace Sys2Proof.Machine

theorem State.setFlag_eq_one_iff {s : State} {f : Bool} : (s.setFlag f).getV 0xF = 1 ↔ f = true := by
  rw [State.setFlag_eq, State.setV_getV, if_pos rfl]
  cases f <;> decide

theorem State.setFlag_eq_zero_iff {s : State} {f : Bool} : (s.setFlag f).getV 0xF = 0 ↔ f = false := by
  rw [State.setFlag_eq, State.setV_getV, if_pos rfl]
  cases f <;> decide

section

variable {s : State} {x y n : Nibble}

/-- A sprite's bytes are at most 15, so it does not meet itself around the display's edge (R152). -/
theorem State.spriteRows_length_le : (s.spriteRows n).length ≤ 32 := by
  rw [State.spriteRows_length]; omega

/-- A pixel after DRW: the old one XOR the sprite's bit that lands on it (R153, R154). -/
theorem effect_drw_pixel (Y X : Nat) : (effect (.drw x y n) s).disp.pixel Y X =
    (s.disp.pixel Y X ^^ spriteCovers (s.spriteRows n) (s.spriteX x) (s.spriteY y) Y X) :=
  drawSprite_pixel _ _ _ _ State.spriteRows_length_le Y X

/-- DRW turned a pixel off: on before it and off after (R155). -/
def turnsOff (s t : State) : Prop :=
  ∃ py px, py < 32 ∧ px < 64 ∧ s.disp.pixel py px = true ∧ t.disp.pixel py px = false

/-- The hit that the blitter reports is a pixel turned off (R155). -/
theorem drawSprite_hit_iff_turnsOff :
    (drawSprite s.disp (s.spriteX x) (s.spriteY y) (s.spriteRows n)).2 = true ↔ turnsOff s (effect (.drw x y n) s) :=
  drawSprite_hit _ _ _ _ State.spriteRows_length_le

/-- VF after DRW is 1 exactly if a pixel was turned off (R155). -/
theorem effect_drw_VF_eq_one_iff :
    (effect (.drw x y n) s).getV 0xF = 1 ↔ turnsOff s (effect (.drw x y n) s) :=
  State.setFlag_eq_one_iff.trans drawSprite_hit_iff_turnsOff

/-- VF after DRW is 0 exactly if no pixel was turned off (R155). -/
theorem effect_drw_VF_eq_zero_iff :
    (effect (.drw x y n) s).getV 0xF = 0 ↔ ¬ turnsOff s (effect (.drw x y n) s) := by
  rw [← drawSprite_hit_iff_turnsOff, Bool.not_eq_true]
  exact State.setFlag_eq_zero_iff

/-- Where the sprite of DRW lands, by the registers and the memory it is drawn from (R56, R152..R154). -/
theorem spriteCovers_spriteRows {py px : Nat} (hy : py < 32) (hx : px < 64) :
    spriteCovers (s.spriteRows n) (s.spriteX x) (s.spriteY y) py px =
      (decide ((py + 32 - (s.getV y).toNat % 32) % 32 < n.toNat) &&
        decide ((px + 64 - (s.getV x).toNat % 64) % 64 < 8) &&
        (s.mem.get ((s.i.toNat + (py + 32 - (s.getV y).toNat % 32) % 32) % 4096)).getLsbD
          (7 - (px + 64 - (s.getV x).toNat % 64) % 64)) := by
  simp only [spriteCovers, State.spriteX, State.spriteY, Config.displayW, Config.displayH, Nat.mod_mod,
    Nat.mod_eq_of_lt hy, Nat.mod_eq_of_lt hx, State.spriteRows_get]
  by_cases row : (py + 32 - (s.getV y).toNat % 32) % 32 < n.toNat <;> simp [row]

/-- Settles O42: the XOR pixel by pixel, and VF by whether a pixel went off. -/
theorem drawXorsTheSprite : Obligations.DrawXorsTheSprite := by
  unfold Obligations.DrawXorsTheSprite
  intro x y n s
  refine ⟨_, exec_next rfl, fun py px hy hx => ?_, effect_drw_VF_eq_one_iff.mpr, effect_drw_VF_eq_zero_iff.mpr,
    effect_keeps (.drw x y n) s⟩
  rw [effect_drw_pixel, spriteCovers_spriteRows hy hx]

end

/-- A 1 bit of a sprite lands on a pixel (R153, R154). -/
theorem spriteCovers_of_bit {rows : List Byte} {r j : Nat} (x0 y0 : Nat) (hr : r < 32) (hj : j < 8)
    (bit : (rows[r]?.getD 0).getLsbD j = true) :
    spriteCovers rows x0 y0 ((y0 + r) % 32) ((x0 + (7 - j)) % 64) = true := by
  have row : ((y0 + r) % 32 % 32 + 32 - y0 % 32) % 32 = r := by omega
  have column : ((x0 + (7 - j)) % 64 % 64 + 64 - x0 % 64) % 64 = 7 - j := by omega
  have back : 7 - (7 - j) = j := by omega
  simp only [spriteCovers, row, column, back, bit, Bool.and_true, decide_eq_true_eq]
  omega

section

variable {s : State} {x y n : Nibble}

/-- A sprite with a 1 bit lands on some pixel of the display. -/
theorem exists_spriteCovers {r j : Nat} (hr : r < n.toNat)
    (bit : (s.mem.get ((s.i.toNat + r) % 4096)).getLsbD j = true) :
    ∃ Y X, Y < 32 ∧ X < 64 ∧ spriteCovers (s.spriteRows n) (s.spriteX x) (s.spriteY y) Y X = true := by
  have hj : j < 8 := by
    by_contra outside
    rw [BitVec.getLsbD_of_ge _ _ (by omega)] at bit
    cases bit
  have row : (s.spriteRows n)[r]?.getD 0 = s.mem.get ((s.i.toNat + r) % 4096) := by
    rw [State.spriteRows_get, if_pos hr]
  exact ⟨_, _, Nat.mod_lt _ (by decide), Nat.mod_lt _ (by decide),
    spriteCovers_of_bit _ _ (by omega : r < 32) hj (row ▸ bit)⟩

/-- Drawn twice at the same place, a sprite takes its XOR back; only a VX or VY that is VF could move it. -/
theorem effect_drw_twice_disp (notX : x ≠ 0xF) (notY : y ≠ 0xF) :
    (effect (.drw x y n) (effect (.drw x y n) s)).disp = s.disp := by
  have keeps := effect_keeps (.drw x y n) s
  have vx : (effect (.drw x y n) s).getV x = s.getV x := keeps (.reg x) (by simpa [writes] using notX)
  have vy : (effect (.drw x y n) s).getV y = s.getV y := keeps (.reg y) (by simpa [writes] using notY)
  have rows : (effect (.drw x y n) s).spriteRows n = s.spriteRows n := rfl
  apply Grid.ext_pixel
  intro Y X _ _
  rw [effect_drw_pixel, rows, State.spriteX, State.spriteY, vx, vy, effect_drw_pixel, Bool.xor_assoc]
  exact (congrArg _ (Bool.xor_self _)).trans (Bool.xor_false _)

end

/-- Settles O43: the second draw takes the first one's XOR back, so a pixel that the first turned on the second turns off. -/
theorem drawingTwiceRestoresTheDisplay : Obligations.DrawingTwiceRestoresTheDisplay := by
  unfold Obligations.DrawingTwiceRestoresTheDisplay
  intro x y n s t u notX notY first second
  obtain ⟨-, rfl⟩ := exec_eq_next_iff.mp first
  obtain ⟨-, rfl⟩ := exec_eq_next_iff.mp second
  have restored := effect_drw_twice_disp (s := s) (n := n) notX notY
  refine ⟨restored, ?_⟩
  rintro noHit ⟨r, j, hr, bit⟩
  have nothingOff := effect_drw_VF_eq_zero_iff.mp noHit
  obtain ⟨Y, X, hY, hX, covered⟩ := exists_spriteCovers (x := x) (y := y) hr bit
  have inverted : (effect (.drw x y n) s).disp.pixel Y X = !s.disp.pixel Y X := by
    rw [effect_drw_pixel, covered, Bool.xor_true]
  have off : s.disp.pixel Y X = false := by
    by_contra on
    rw [Bool.not_eq_false] at on
    exact nothingOff ⟨Y, X, hY, hX, on, by rw [inverted, on]; rfl⟩
  exact effect_drw_VF_eq_one_iff.mpr ⟨Y, X, hY, hX, by rw [inverted, off]; rfl, by rw [restored, off]⟩

end Sys2Proof.Machine
end

section
/-!
The keypad and the key-wait (46_keypad.md, 60_exceptions.md section 5), from the suspension to the stored key.
-/

namespace Sys2Proof.Machine

variable {s : State}

/-- Settles O44: the key is the one that the low nibble names, and the skip's effect is the PC that it chooses. -/
theorem keySkips : Obligations.KeySkips := by
  unfold Obligations.KeySkips
  intro x k s names
  have key : s.lowNibble x = k := BitVec.eq_of_toNat_eq ((s.lowNibble_toNat x).trans names)
  refine ⟨⟨_, exec_next rfl, ?_, effect_keeps_oneOf (by simp [writes])⟩,
    ⟨_, exec_next rfl, ?_, effect_keeps_oneOf (by simp [writes])⟩⟩
  · rw [effect, State.setPc_pc, key]
  · rw [effect, State.setPc_pc, key]

/-- Settles O45: FX0A writes KW, and PC back to its own address. -/
theorem waitForKeySuspends : Obligations.WaitForKeySuspends := by
  unfold Obligations.WaitForKeySuspends
  intro x s a hpc
  refine ⟨_, exec_next rfl, rfl, ?_, effect_keeps_oneOf (by simp [writes])⟩
  simp [effect, State.instrAddr, hpc]

@[simp] theorem State.setKey_getKey (s : State) (k : Nibble) (p : Bool) : (s.setKey k p).getKey k = p := by
  simp [State.setKey]

@[simp] theorem State.setKey_kw (s : State) (k : Nibble) (p : Bool) :
    (s.setKey k p).kw = keyWaitAfter s.kw k (s.getKey k) p := rfl

/-- `set_key` touches the key it names and KW (R194). -/
theorem State.setKey_keeps (s : State) (k : Nibble) (p : Bool) :
    KeepsAllBut (oneOf [.key k, .kw]) s (s.setKey k p) := by
  have frame : KeepsAllBut _ s (s.setKey k p) := (s.setKeyState_keeps k p).trans (State.setKw_keeps _ _)
  exact frame.mono (by simp [oneOf])

/-- Settles O46: KW moves from Wait to Ready on a press of a released key, and by nothing else. -/
theorem setKeyRecordsThePress : Obligations.SetKeyRecordsThePress := by
  unfold Obligations.SetKeyRecordsThePress
  refine fun s k p => ⟨s.setKey_getKey k p, ?_, ?_, s.setKey_keeps k p⟩
  · rintro x wait rfl released
    simp [wait, released, keyWaitAfter]
  · intro idle
    rw [State.setKey_kw]
    cases kw : s.kw with
    | run | ready => rfl
    | wait x =>
      obtain notWait | release | held := idle
      · exact absurd kw (notWait x)
      · simp [keyWaitAfter, release]
      · simp [keyWaitAfter, held]

/-- FX0A in a step: KW alone changes, since PC goes on and comes back (R93, R162). -/
theorem stepCall_ldKey {x : Nibble} (executes : s.executes (.ldKey x)) : s.stepCall = (s.setKw (.wait x), .ok) := by
  have suspends : effect (.ldKey x) s.advance = s.setKw (.wait x) := by
    rw [effect, State.advance_instrAddr]; rfl
  exact State.stepCall_executes executes (exec_eq_next_iff.mpr ⟨rfl, suspends.symm⟩)

theorem session_append (ops ops' : List HostOp) : ∀ s, session (ops ++ ops') s = session ops' (session ops s) := by
  induction ops with
  | nil => exact fun s => rfl
  | cons op ops ih => exact fun s => ih _

/-- A suspended machine stands still over any number of steps (R95). -/
theorem session_steps_of_wait {x : Nibble} (wait : s.kw = .wait x) (n : Nat) :
    session (List.replicate n .step) s = s := by
  induction n with
  | zero => rfl
  | succ n ih =>
    rw [List.replicate_succ, session, perform, State.stepCall_wait wait]
    exact ih

/-- FX0A and any number of steps after it. -/
theorem session_ldKey {x : Nibble} (executes : s.executes (.ldKey x)) (n : Nat) :
    session (List.replicate (n + 1) .step) s = s.setKw (.wait x) := by
  rw [List.replicate_succ, session, perform, stepCall_ldKey executes]
  exact session_steps_of_wait rfl n

/-- The press of a released key in a wait, and the step after it (R194, R96). -/
theorem session_press {x k : Nibble} (wait : s.kw = .wait x) (released : s.getKey k = false) :
    session [.setKey k true, .step] s = (s.setKey k true).resume x k := by
  have ready : (s.setKey k true).kw = .ready x k := by simp [wait, released, keyWaitAfter]
  have unreported : (s.setKey k true).invalidReport = none := State.invalidReport_suspended (by rw [ready]; nofun)
  have resumes := State.stepCall_next (step_ready ready) unreported
  simp [session, perform, resumes]

/-- Settles O47: the suspension, the press and the resume one after another; KW is Run before and after. -/
theorem keyWaitCompletes : Obligations.KeyWaitCompletes := by
  unfold Obligations.KeyWaitCompletes
  intro s x k n executes released
  have suspended := session_ldKey executes n
  have resumed : session (List.replicate (n + 1) .step ++ [.setKey k true, .step]) s =
      ((s.setKw (.wait x)).setKey k true).resume x k := by
    rw [session_append, suspended, session_press (s := s.setKw (.wait x)) rfl released]
  have waits : KeepsAllBut (oneOf [.kw]) s (s.setKw (.wait x)) := (s.setKw_keeps _).mono (by simp [oneOf])
  have frame := (waits.trans (State.setKey_keeps _ k true)).trans (State.resume_keeps _ x k)
  rw [suspended, resumed]
  refine ⟨rfl, waits, State.resume_getV_toNat _ x k, rfl, by simp [State.resume], fun p untouched => ?_⟩
  by_cases kw : p = .kw
  · subst kw
    exact executes.1.symm
  · refine frame p ?_
    simp only [oneOf, List.mem_cons, List.not_mem_nil, or_false] at untouched ⊢
    tauto

end Sys2Proof.Machine
end

section
/-!
What a step does not read (60_exceptions.md R191, 10_state.md R31): a tick, or another setting of the keys, commutes with
every step that executes no instruction that reads or writes what it changes.
-/

namespace Sys2Proof.Machine

variable {s : State} {f : State → State}

/-- A change that neither an instruction's error nor its effect sees commutes with the instruction. -/
theorem exec_mapNext {i : Instr} (error : faultOf i (f s) = faultOf i s) (commutes : effect i (f s) = f (effect i s)) :
    exec i (f s) = mapNext f (exec i s) := by
  rw [exec_eq, exec_eq, error, commutes]
  cases faultOf i s <;> rfl

/-- A change that leaves what a step looks at, and commutes with the resume, the advance and the instruction, commutes with
the step. -/
theorem step_mapNext (kw : (f s).kw = s.kw) (pc : (f s).pc = s.pc) (mem : (f s).mem = s.mem)
    (policy : (f s).policy = s.policy) (resume : ∀ x k, (f s).resume x k = f (s.resume x k))
    (advance : (f s).advance = f s.advance)
    (instruction : ∀ i, s.executes i → exec i (f s.advance) = mapNext f (exec i s.advance)) :
    step (f s) = mapNext f (step s) := by
  rcases s.situation with ⟨x, wait⟩ | ⟨x, k, ready⟩ | ⟨running, outside⟩ | ⟨w, invalid⟩ | ⟨i, executes⟩
  · rw [step_wait wait, step_wait (kw.trans wait), mapNext_next]
  · rw [step_ready ready, step_ready (kw.trans ready), mapNext_next, resume]
  · rw [step_outside running outside, step_outside (kw.trans running) (pc ▸ outside), pc, mapNext_fault]
  · have invalid' := State.meetsInvalid_congr kw pc mem invalid
    cases halts : s.policy with
    | halt => rw [step_invalid_halt invalid halts, step_invalid_halt invalid' (policy.trans halts), pc, mapNext_fault]
    | skip => rw [step_invalid_skip invalid halts, step_invalid_skip invalid' (policy.trans halts), advance, mapNext_next]
  · rw [step_exec executes, step_exec (State.executes_congr kw pc mem executes), advance, instruction i executes]

/-- The next state of a commuting step, and its error. -/
theorem next_and_fault_of_mapNext (h : step (f s) = mapNext f (step s)) :
    (∀ t, step s = .next t → step (f s) = .next (f t)) ∧ (∀ e, step s = .fault e → step (f s) = .fault e) :=
  ⟨fun t next => by rw [h, next, mapNext_next], fun e fails => by rw [h, fails, mapNext_fault]⟩

/-- A tick commutes with every instruction but the three of the timers. -/
theorem exec_tickTimers {i : Instr} (notTimer : ∀ x, i ≠ .getDt x ∧ i ≠ .setDt x ∧ i ≠ .setSt x) :
    exec i s.tickTimers = mapNext State.tickTimers (exec i s) := by
  refine exec_mapNext (faultOf_congr rfl rfl rfl) ?_
  cases i with
  | getDt x => exact absurd rfl (notTimer x).1
  | setDt x => exact absurd rfl (notTimer x).2.1
  | setSt x => exact absurd rfl (notTimer x).2.2
  | _ => rfl

/-- Settles O50: the three instructions left out are the only ones that read DT or write a timer. -/
theorem tickCommutesWithStep : Obligations.TickCommutesWithStep := by
  unfold Obligations.TickCommutesWithStep
  intro s notTimer
  refine next_and_fault_of_mapNext (f := State.tickTimers)
    (step_mapNext rfl rfl rfl rfl (fun x k => rfl) rfl fun i executes => exec_tickTimers fun x => ?_)
  obtain ⟨notGet, notSetDt, notSetSt⟩ := notTimer x
  exact ⟨fun e => notGet (e ▸ executes), fun e => notSetDt (e ▸ executes), fun e => notSetSt (e ▸ executes)⟩

/-- All sixteen key states replaced (R31). -/
def State.setKeys (ks : Vector Bool 16) (s : State) : State := { s with keys := ks }

/-- The keys commute with every instruction but the two that test one. -/
theorem exec_setKeys {i : Instr} (ks : Vector Bool 16) (notKeySkip : ∀ x, i ≠ .skp x ∧ i ≠ .sknp x) :
    exec i (s.setKeys ks) = mapNext (State.setKeys ks) (exec i s) := by
  refine exec_mapNext (faultOf_congr rfl rfl rfl) ?_
  cases i with
  | skp x => exact absurd rfl (notKeySkip x).1
  | sknp x => exact absurd rfl (notKeySkip x).2
  | _ => rfl

/-- No step writes a key. -/
theorem step_getKey {t : State} (h : step s = .next t) (k : Nibble) : t.getKey k = s.getKey k :=
  step_keeps (p := .key k) (fun i s => by cases i <;> simp [writes]) h

/-- No operation but a reset and `set_key` writes a key. -/
theorem perform_getKey {op : HostOp} (k : Nibble) (notReset : op ≠ .reset) (notSetKey : ∀ p, op ≠ .setKey k p) :
    (perform op s).1.getKey k = s.getKey k := by
  cases op with
  | loadRom rom =>
    by_cases fits : rom.length ≤ 3584
    · rw [perform_loadRom_of_le fits]; rfl
    · rw [perform_loadRom_of_lt (by omega)]
  | step =>
    rcases s.stepCall_state with same | next
    · exact congrArg (State.getKey · k) same
    · exact step_getKey next k
  | setKey j p =>
    have other : k ≠ j := fun e => notSetKey p (e ▸ rfl)
    exact s.setKey_keeps j p (.key k) (by simp [oneOf, other])
  | reset => exact absurd rfl notReset
  | _ => rfl

/-- Construction releases every key. -/
theorem State.new_getKey (p : Config.InvalidOpcodePolicy) (k : Nibble) : (State.new p).getKey k = false := by
  simp [State.new, State.reset, State.getKey]

/-- Settles O52: who writes a key, who reads one, and that the other steps commute with another setting of the keys. -/
theorem keyStatesAreTheHosts : Obligations.KeyStatesAreTheHosts := by
  unfold Obligations.KeyStatesAreTheHosts
  refine ⟨fun s t h => step_getKey h, fun s op k => perform_getKey k, fun s k p => s.setKey_getKey k p,
    fun s k => ⟨State.new_getKey s.policy k, fun p => State.new_getKey p k⟩, ?_, ?_, ?_⟩
  · intro x s p all
    have read := all (s.lowNibble x)
    constructor
    · exact exec_eq_next_iff.mpr ⟨rfl, by rw [effect, read]; rfl⟩
    · exact exec_eq_next_iff.mpr ⟨rfl, by rw [effect, read]; rfl⟩
  · intro s x k wait
    rw [perform, State.setKey_kw, wait]
    cases s.getKey k <;> rfl
  · intro s ks notKeySkip
    refine next_and_fault_of_mapNext (f := State.setKeys ks)
      (step_mapNext rfl rfl rfl rfl (fun x k => rfl) rfl fun i executes => exec_setKeys ks fun x => ?_)
    obtain ⟨notSkp, notSknp⟩ := notKeySkip x
    exact ⟨fun e => notSkp (e ▸ executes), fun e => notSknp (e ▸ executes)⟩

end Sys2Proof.Machine
end

section
/-!
The timer instructions (47_timers.md) and what construction leaves (10_state.md R37).
-/

namespace Sys2Proof.Machine

/-- Settles O48: each effect writes its target, and ST is what `sound_active()` tells. -/
theorem timerInstructions : Obligations.TimerInstructions := by
  unfold Obligations.TimerInstructions
  exact fun x s => ⟨⟨_, exec_next rfl, by simp [effect], effect_keeps_oneOf (by simp [writes])⟩,
    ⟨_, exec_next rfl, rfl, effect_keeps_oneOf (by simp [writes])⟩,
    ⟨_, exec_next rfl, rfl, State.soundActive_iff _, effect_keeps_oneOf (by simp [writes])⟩⟩

/-- Above the font memory is 0 at construction (R37). -/
theorem initialByte_of_le {a : Nat} (above : 80 ≤ a) : initialByte a = 0 :=
  List.getD_eq_default _ _ above

/-- Settles O54: each element as it is constructed, the font by the table. -/
theorem constructionValues : Obligations.ConstructionValues := by
  unfold Obligations.ConstructionValues
  refine fun p => ⟨rfl, Grid.pixel_clear, ?_, rfl, rfl, rfl, rfl, State.new_getKey p, rfl, fun a => initialByte_of_le,
    rfl, rfl, ?_⟩
  · simp [State.new, State.reset, State.getV]
  · rfl

end Sys2Proof.Machine
end
